-- ==== Sys2Proof/Word.lean ====
section
/-! DEFINITION. The widths of the Blue core (spec/00_scope.md R6): words of 16 bits, address fields of 12 bits,
input and output bytes. -/

namespace Sys2Proof

/-- A word: "the fixed 16-bit unit of both instructions and data" (20_memory.md R50). -/
abbrev Word := BitVec 16

/-- A byte of the input tape or of the output history (10_state.md R28, R31). -/
abbrev Byte := BitVec 8

/-- The 12-bit address field of an instruction word (30_encoding.md R80, R82). -/
abbrev Addr := BitVec 12

end Sys2Proof
end

