-- ==== Sys2Proof/Config.lean ====
section
/-! DEFINITION. What the spec leaves to the environment or the loader (spec/00_scope.md R7): the parameters of a run,
the line source as plain data, and the values `State.reset` takes for the parameters the spec leaves open. -/

namespace Sys2Proof

/-- An answer of the line source to one request (44_io.md R174). End of input is `line []`. "No answer" is not a
value of this type: see `LineSource`. -/
inductive LineAnswer where
  /-- `Line(bytes)`: one line, possibly empty. -/
  | line (bytes : List Byte)
  /-- `Failure`: the external line source raised an I/O error. -/
  | failure
  deriving DecidableEq, Repr

/-- LINE_SOURCE (44_io.md R174, 92_eei_decisions.md D14) as plain data: request n gets the n-th entry of `answers`,
and every request past the list gets `rest`; `rest = none` says that such a request has no answer yet.
DESIGN CHOICE, log 6 (safe): what any line source does over finitely many requests is some value of this type. -/
structure LineSource where
  answers : List LineAnswer
  rest : Option LineAnswer
  deriving DecidableEq, Repr

/-- The bound of 10_state.md R26: a 12-bit address field names 4096 words. -/
def Config.memLenMax : Nat := 4096

/-- The open parameters of 00_scope.md R7. MEM_LEN is the length of IMAGE (10_state.md R27). -/
structure Config.Params where
  image : List Word
  accReset : Word
  csValue : Word
  irReset : Word
  lineSource : LineSource
  deriving DecidableEq, Repr

/-- MEM_LEN of `State.reset`. DESIGN CHOICE, log 2 (unsafe): the spec leaves it open. -/
def Config.memLenReset : Nat := 4096

/-- ACC_RESET of `State.reset`. DESIGN CHOICE, log 3 (unsafe): the spec leaves it open. -/
def Config.accReset : Word := 0#16

/-- CS_VALUE of `State.reset`. DESIGN CHOICE, log 4 (unsafe): the spec leaves it open. -/
def Config.csValue : Word := 0#16

/-- IR_RESET of `State.reset`. DESIGN CHOICE, log 5 (unsafe): the spec leaves it open. -/
def Config.irReset : Word := 0#16

/-- LINE_SOURCE of `State.reset`: nothing supplied. DESIGN CHOICE, log 6 (unsafe at reset only). -/
def Config.lineSourceReset : LineSource := { answers := [], rest := none }

/-- The parameters `State.reset` stands for: memory of zero words and the named values above. -/
def Config.defaults : Config.Params :=
  { image := List.replicate Config.memLenReset 0#16
    accReset := Config.accReset
    csValue := Config.csValue
    irReset := Config.irReset
    lineSource := Config.lineSourceReset }

end Sys2Proof
end

