-- ==== Sys2Proof/Syntax.lean ====
section
/-! DEFINITION. The instructions: one constructor for each of the seventeen rows of spec/opcode_table.json
(spec/30_encoding.md R83). -/

namespace Sys2Proof

/-- An instruction. Every row but HLT carries the 12-bit address field, also where the operation ignores it (R86), so
that no bit of an encoding is dropped. -/
inductive Instr where
  /-- HLT, the word 0x0000 (40_cycle.md R105). -/
  | hlt
  /-- HLT.NZ, operation 0 with a nonzero address (40_cycle.md R106). -/
  | hltNz (addr : Addr)
  /-- ADD (41_alu.md R121). -/
  | add (addr : Addr)
  /-- XOR (41_alu.md R122). -/
  | xor (addr : Addr)
  /-- AND (41_alu.md R123). -/
  | and (addr : Addr)
  /-- OR (41_alu.md R124). -/
  | or (addr : Addr)
  /-- NOT (41_alu.md R125). -/
  | not (addr : Addr)
  /-- LDA (42_data_movement.md R140). -/
  | lda (addr : Addr)
  /-- STA (42_data_movement.md R141). -/
  | sta (addr : Addr)
  /-- SRJ (43_control_transfer.md R151). -/
  | srj (addr : Addr)
  /-- JMA (43_control_transfer.md R152). -/
  | jma (addr : Addr)
  /-- JMP (43_control_transfer.md R153). -/
  | jmp (addr : Addr)
  /-- IN (44_io.md R171). -/
  | inp (addr : Addr)
  /-- OUT (44_io.md R180). -/
  | out (addr : Addr)
  /-- RAL (41_alu.md R126). -/
  | ral (addr : Addr)
  /-- CSA (42_data_movement.md R142). -/
  | csa (addr : Addr)
  /-- NOP (40_cycle.md R107). -/
  | nop (addr : Addr)
  deriving DecidableEq, Repr

end Sys2Proof
end

