-- ==== Sys2Proof/WellFormed.lean ====
section
/-! DEFINITION. The checks on instructions and on the parameters of a run. -/

namespace Sys2Proof

/-- An instruction is well formed when it is the reading of some word. The one check is that of HLT.NZ, whose address
is not 0, because the word 0x0000 is HLT (30_encoding.md R85). Any address is legal for every other row (R86, R82). -/
def Instr.wf : Instr → Bool
  | .hlt => true
  | .hltNz a => a != 0#12
  | .add _ => true
  | .xor _ => true
  | .and _ => true
  | .or _ => true
  | .not _ => true
  | .lda _ => true
  | .sta _ => true
  | .srj _ => true
  | .jma _ => true
  | .jmp _ => true
  | .inp _ => true
  | .out _ => true
  | .ral _ => true
  | .csa _ => true
  | .nop _ => true

/-- Parameters are well formed when MEM_LEN is at most 4096 (10_state.md R26; 93_implementation_defined.md U10). -/
def Config.Params.wf (p : Config.Params) : Bool :=
  decide (p.image.length ≤ Config.memLenMax)

end Sys2Proof
end

