-- ==== Sys2Proof/Decode.lean ====
section
/-! DEFINITION. The decoder and the encoder, both from the format and the opcode map of spec/30_encoding.md R80 to R89.
Decoding is total (R84): all 65536 words are instructions, so no word is rejected. -/

namespace Sys2Proof

/-- `op = ir[15:12]` (R81). -/
def opField (w : Word) : BitVec 4 := w.extractLsb' 12 4

/-- `addr = ir[11:0]` (R81). -/
def addrField (w : Word) : Addr := w.extractLsb' 0 12

/-- The instruction a word is (R83). Operation 0 is split on the whole word: only 0x0000 halts (R85). The field has
four bits, so the last arm is operation 15 and no other. -/
def decode (w : Word) : Instr :=
  match (opField w).toNat with
  | 0 => if w = 0x0000#16 then .hlt else .hltNz (addrField w)
  | 1 => .add (addrField w)
  | 2 => .xor (addrField w)
  | 3 => .and (addrField w)
  | 4 => .or (addrField w)
  | 5 => .not (addrField w)
  | 6 => .lda (addrField w)
  | 7 => .sta (addrField w)
  | 8 => .srj (addrField w)
  | 9 => .jma (addrField w)
  | 10 => .jmp (addrField w)
  | 11 => .inp (addrField w)
  | 12 => .out (addrField w)
  | 13 => .ral (addrField w)
  | 14 => .csa (addrField w)
  | _ => .nop (addrField w)

/-- The operation number of a row (R83). -/
def opNumber : Instr → BitVec 4
  | .hlt => 0
  | .hltNz _ => 0
  | .add _ => 1
  | .xor _ => 2
  | .and _ => 3
  | .or _ => 4
  | .not _ => 5
  | .lda _ => 6
  | .sta _ => 7
  | .srj _ => 8
  | .jma _ => 9
  | .jmp _ => 10
  | .inp _ => 11
  | .out _ => 12
  | .ral _ => 13
  | .csa _ => 14
  | .nop _ => 15

/-- The address field of an instruction; HLT is the word 0x0000, so its field is 0 (R85). -/
def addrOf : Instr → Addr
  | .hlt => 0
  | .hltNz a => a
  | .add a => a
  | .xor a => a
  | .and a => a
  | .or a => a
  | .not a => a
  | .lda a => a
  | .sta a => a
  | .srj a => a
  | .jma a => a
  | .jmp a => a
  | .inp a => a
  | .out a => a
  | .ral a => a
  | .csa a => a
  | .nop a => a

/-- The word of an instruction: the operation number over the address (R80, R89). -/
def encode (i : Instr) : Word := opNumber i ++ addrOf i

/-- The instruction read from a row's bits as spec/opcode_table.json numbers them. An instruction is one word (R80);
bits above `nbits` are 0 (log 22). -/
def decodeTableWord (nbits w : Nat) : Option Instr :=
  some (decode (BitVec.ofNat 16 (w % 2 ^ nbits)))

end Sys2Proof
end

