-- ==== Sys2Proof/Machine/State.lean ====
section
/-! DEFINITION. The state of the Blue core (spec/10_state.md), the reasons a step can stop, and the state after reset. -/

namespace Sys2Proof.Machine

/-- The sub-kind of an out-of-range memory access (60_exceptions.md R200). -/
inductive Access where
  | fetch
  | read
  | write
  deriving DecidableEq, Repr

/-- The fatal conditions of the core and the information each records (60_exceptions.md R200; names D10, log 24). -/
inductive Fatal where
  /-- `MemRange(kind, a)`: an access at or above MEM_LEN (R201). -/
  | memRange (kind : Access) (a : Nat)
  /-- `InputFailure(n)`: the line source answered `Failure` to request n (R202). -/
  | inputFailure (n : Nat)
  deriving DecidableEq, Repr

/-- The run status (10_state.md R25). -/
inductive RunStatus where
  | running
  | halted
  | faulted (k : Fatal)
  deriving DecidableEq, Repr

/-- Where the engine stands while `run` is RUNNING. The model's own field (DESIGN CHOICE, log 7, safe): it is how the
third condition of 60_exceptions.md R214, an IN waiting for its line, is a condition of its own and not a run status. -/
inductive Phase where
  /-- The next step begins with a fetch. -/
  | ready
  /-- An IN has been fetched and waits for the answer to request `req` (44_io.md R176). -/
  | awaitingLine
  deriving DecidableEq, Repr

/-- Why no step is taken (`Outcome.fault`). A fault of the core is NOT here: the step that raises one answers a next
state whose `run` is `faulted` (60_exceptions.md R203). -/
inductive Fault where
  /-- Raised by `step` alone, in a state whose `run` is `halted`: the engine takes no more steps (10_state.md R25).
  Safe: nothing follows a halt (log 8). -/
  | halted
  /-- Raised by `step` alone, in a state whose `run` is `faulted k`: the run is over (10_state.md R25, 60_exceptions.md
  R203). Safe: nothing follows a fault (log 8). -/
  | faulted (k : Fatal)
  deriving DecidableEq, Repr

/-- Why an instruction is given no meaning (`Outcome.refused`). -/
inductive Refusal where
  /-- Raised by `exec` for an instruction without a meaning; no arm raises it. Safe: the run stops. -/
  | notModelled (mnemonic : String)
  deriving DecidableEq, Repr

/-- Memory: `len` is MEM_LEN (10_state.md R26); `cells` lists the nonzero words with their word addresses, rising.
An unlisted word below `len` is 0x0000. DESIGN CHOICE, log 1 (safe): a sparse form of "an ordered, zero-based sequence
of 16-bit words"; words and not bytes, because memory holds no bytes (20_memory.md R55). -/
structure Memory where
  len : Nat
  cells : List (Nat × Word)
  deriving DecidableEq, Repr

/-- The canonical form: addresses strictly rising, every listed address below `len`, no listed word 0x0000. -/
abbrev Memory.wf (m : Memory) : Prop :=
  m.cells.Pairwise (fun c d => c.1 < d.1) ∧ ∀ c ∈ m.cells, c.1 < m.len ∧ c.2 ≠ 0#16

/-- The state: the ten elements of 10_state.md R20, and the model's own `phase` (log 7) and `lines` (log 6). -/
structure State where
  /-- Index into memory of the next word to fetch; never wraps (R21, log 10). -/
  pc : Nat
  /-- The most recently fetched word (R22). -/
  ir : Word
  /-- The accumulator (R23). -/
  acc : Word
  /-- The status register, which nothing writes (R24). -/
  cs : Word
  /-- The run status (R25). -/
  run : RunStatus
  /-- Memory (R26, R27). -/
  mem : Memory
  /-- The buffered line (R28). -/
  buf : List Byte
  /-- The cursor into `buf` (R29). -/
  head : Nat
  /-- Line requests made so far (R30). -/
  req : Nat
  /-- Bytes emitted so far, oldest first (R31). -/
  out : List Byte
  /-- Whether an IN is waiting for its line (44_io.md R176, log 7). -/
  phase : Phase
  /-- The line source of the environment (44_io.md R174, log 6). -/
  lines : LineSource
  deriving DecidableEq, Repr

/-- The machine right after reset (10_state.md R35, 70_reset_and_hazards.md R230), with the named values of Config for
the parameters the spec leaves open (logs 2 to 6). `State.resetWith` is the reset for any value of them. -/
def State.reset : State where
  pc := 0
  ir := Config.irReset
  acc := Config.accReset
  cs := Config.csValue
  run := .running
  mem := { len := Config.memLenReset, cells := [] }
  buf := []
  head := 0
  req := 0
  out := []
  phase := .ready
  lines := Config.lineSourceReset

end Sys2Proof.Machine
end

