-- ==== Sys2Proof/Machine/Ops.lean ====
section
/-! DEFINITION. The named operations over memory and registers: the three memory primitives of spec/20_memory.md,
fault entry (spec/60_exceptions.md R203), fetch (spec/40_cycle.md R101), the tape and the output history. -/

namespace Sys2Proof.Machine

/-! ## The list of words -/

/-- The word listed at `a`, or 0x0000 where none is. -/
def cellsGet : List (Nat × Word) → Nat → Word
  | [], _ => 0#16
  | (b, w) :: cs, a => if a = b then w else cellsGet cs a

/-- `cs` with the entry for `a` put in front of it, unless the word is the one an unlisted address reads as. -/
def cellsCons (a : Nat) (v : Word) (cs : List (Nat × Word)) : List (Nat × Word) :=
  if v = 0#16 then cs else (a, v) :: cs

/-- The list with the word at `a` made `v`, in the canonical form. -/
def cellsSet : List (Nat × Word) → Nat → Word → List (Nat × Word)
  | [], a, v => cellsCons a v []
  | (b, w) :: cs, a, v =>
    if a < b then cellsCons a v ((b, w) :: cs)
    else if a = b then cellsCons a v cs
    else (b, w) :: cellsSet cs a v

/-! ## Memory -/

/-- The word at `a`, or none where `a` is not below MEM_LEN (20_memory.md R63). -/
def Memory.read (m : Memory) (a : Nat) : Option Word :=
  if a < m.len then some (cellsGet m.cells a) else none

/-- Memory with all 16 bits of the word at `a` replaced; it does not grow (20_memory.md R53). -/
def Memory.put (m : Memory) (a : Nat) (v : Word) : Memory :=
  { m with cells := cellsSet m.cells a v }

/-- Memory after a store at `a`, or none where `a` is not below MEM_LEN. -/
def Memory.write (m : Memory) (a : Nat) (v : Word) : Option Memory :=
  if a < m.len then some (m.put a v) else none

/-! ## Registers -/

/-- `pc <- v`. -/
def State.setPc (s : State) (v : Nat) : State := { s with pc := v }

/-- `ir <- v`; fetch alone uses it (10_state.md R22). -/
def State.setIr (s : State) (v : Word) : State := { s with ir := v }

/-- `acc <- v`. -/
def State.setAcc (s : State) (v : Word) : State := { s with acc := v }

/-- `run <- v`. -/
def State.setRun (s : State) (v : RunStatus) : State := { s with run := v }

/-- Memory replaced; STA alone uses it (10_state.md R34). -/
def State.setMem (s : State) (v : Memory) : State := { s with mem := v }

/-- The cursor of the tape; IN alone uses it (10_state.md R29). -/
def State.setHead (s : State) (v : Nat) : State := { s with head := v }

/-- Whether an IN waits. -/
def State.setPhase (s : State) (v : Phase) : State := { s with phase := v }

/-- `emit(b)`: append a byte to the output history (44_io.md R181). -/
def State.emit (s : State) (b : Byte) : State := { s with out := s.out ++ [b] }

/-- The new line of a refill: it replaces the buffer, the cursor goes to 0, the request is counted (44_io.md R171). -/
def State.refillWith (s : State) (bytes : List Byte) : State :=
  { s with buf := bytes, head := 0, req := s.req + 1 }

/-! ## Widths -/

/-- `zext_16` of a byte (44_io.md R175). -/
def zextByte (b : Byte) : Word := b.setWidth 16

/-- `acc[7:0]` (44_io.md R180). -/
def lowByte (w : Word) : Byte := w.setWidth 8

/-- `zext_16(pc[11:0])`, that is `pc AND 0xFFF` (43_control_transfer.md R151). -/
def pcLow12 (pc : Nat) : Word := BitVec.ofNat 16 (pc % 4096)

/-! ## Faults -/

/-- Fault entry, the one operation every fault goes through: `run <- FAULTED(K, info)` and nothing else
(60_exceptions.md R203; what stands of the step is D9, log 9). The step ends in a next state. There is no return from
it (R204). -/
def raise (k : Fatal) (s : State) : Host.Outcome State Fault Refusal :=
  .next (s.setRun (.faulted k))

/-! ## The memory primitives -/

/-- `MemFetch(a)` (20_memory.md R51). -/
def memFetch (s : State) (a : Nat) : Except Fatal Word :=
  match s.mem.read a with
  | none => .error (.memRange .fetch a)
  | some w => .ok w

/-- `MemRead(a)` (20_memory.md R52). -/
def memRead (s : State) (a : Nat) : Except Fatal Word :=
  match s.mem.read a with
  | none => .error (.memRange .read a)
  | some w => .ok w

/-- `MemWrite(a, v)` (20_memory.md R53). -/
def memWrite (s : State) (a : Nat) (v : Word) : Except Fatal State :=
  match s.mem.write a v with
  | none => .error (.memRange .write a)
  | some m => .ok (s.setMem m)

/-! ## Fetch -/

/-- The state after the fetch of the word `w`: `ir <- w; pc <- pc + 1`, the increment without wrap (40_cycle.md R101). -/
def afterFetch (s : State) (w : Word) : State := (s.setIr w).setPc (s.pc + 1)

/-- Fetch (40_cycle.md R101): the word at `pc` and the state in which it is executed. -/
def fetch (s : State) : Except Fatal (Word × State) :=
  match memFetch s s.pc with
  | .error k => .error k
  | .ok w => .ok (w, afterFetch s w)

/-- The instruction a waiting core goes on with: the IN whose word `ir` holds (44_io.md R176, log 23). -/
def waitingInstr (s : State) : Instr := .inp (addrField s.ir)

/-! ## The line source -/

/-- `LINE_SOURCE(n)`, none while request n has no answer (44_io.md R174). -/
def lineAnswer (src : LineSource) (n : Nat) : Option LineAnswer :=
  match src.answers[n]? with
  | some a => some a
  | none => src.rest

end Sys2Proof.Machine
end

