-- ==== Sys2Proof/Machine/Operands.lean ====
section
/-! DEFINITION. The operand forms (spec/30_encoding.md R82, spec/42_data_movement.md R143): a memory operand, a jump
target, and an address field that is ignored. There is one addressing mode, direct word addressing. -/

namespace Sys2Proof.Machine

/-- The address of a memory operand: the field itself, zero-extended, not scaled (30_encoding.md R82). -/
def effectiveAddr (a : Addr) : Nat := a.toNat

/-- The target of a control transfer: the field as an absolute word address (43_control_transfer.md R150). -/
def jumpTarget (a : Addr) : Nat := a.toNat

/-- The accumulator operations with a memory operand (ADD, XOR, AND, OR, LDA): one `MemRead`, then `acc <- f acc m`;
if the read raises, `acc` is unchanged (41_alu.md R120). -/
def accWithMem (f : Word → Word → Word) (a : Addr) (s : State) : Host.Outcome State Fault Refusal :=
  match memRead s (effectiveAddr a) with
  | .error k => raise k s
  | .ok m => .next (s.setAcc (f s.acc m))

/-- The store of a word to a memory operand: one `MemWrite` (42_data_movement.md R141). -/
def storeMem (a : Addr) (v : Word) (s : State) : Host.Outcome State Fault Refusal :=
  match memWrite s (effectiveAddr a) v with
  | .error k => raise k s
  | .ok t => .next t

/-- The operations on the accumulator alone, which ignore the address field (NOT, RAL, CSA): no memory access
(20_memory.md R54). -/
def accOnly (f : Word → Word) (s : State) : Host.Outcome State Fault Refusal :=
  .next (s.setAcc (f s.acc))

/-- The operations with no effect beyond the fetch, whose address field is ignored (HLT.NZ, NOP). -/
def noEffect (s : State) : Host.Outcome State Fault Refusal := .next s

end Sys2Proof.Machine
end

