-- ==== Sys2Proof/Machine/Alu.lean ====
section
/-! DEFINITION. Arithmetic and logic: ADD, XOR, AND, OR, NOT, RAL (spec/41_alu.md). -/

namespace Sys2Proof.Machine

/-- `(acc + m) mod 2^16`, the carry out of bit 15 discarded (R121). -/
def aluAdd (x m : Word) : Word := BitVec.ofNat 16 (x.toNat + m.toNat)

/-- `((acc << 1) mod 2^16) OR (acc >> 15)` (R126). -/
def aluRal (x : Word) : Word := (x <<< 1) ||| (x >>> 15)

/-- ADD (R121). -/
def execAdd (a : Addr) (s : State) : Host.Outcome State Fault Refusal := accWithMem aluAdd a s

/-- XOR (R122). -/
def execXor (a : Addr) (s : State) : Host.Outcome State Fault Refusal := accWithMem (fun x m => x ^^^ m) a s

/-- AND (R123). -/
def execAnd (a : Addr) (s : State) : Host.Outcome State Fault Refusal := accWithMem (fun x m => x &&& m) a s

/-- OR, inclusive (R124). -/
def execOr (a : Addr) (s : State) : Host.Outcome State Fault Refusal := accWithMem (fun x m => x ||| m) a s

/-- NOT, the complement of all 16 bits (R125). -/
def execNot (_a : Addr) (s : State) : Host.Outcome State Fault Refusal := accOnly (fun x => ~~~x) s

/-- RAL (R126). -/
def execRal (_a : Addr) (s : State) : Host.Outcome State Fault Refusal := accOnly aluRal s

end Sys2Proof.Machine
end

