-- ==== Sys2Proof/Machine/Flags.lean ====
section
/-! DEFINITION. The Blue core has no flags (spec/10_state.md R32): no operation sets or tests a carry, overflow, zero
or sign flag. The one condition is bit 15 of `acc` at the moment JMA executes (spec/43_control_transfer.md R152). -/

namespace Sys2Proof.Machine

/-- `acc[15] == 1`. -/
def accBit15 (s : State) : Bool := s.acc.getLsbD 15

end Sys2Proof.Machine
end

