-- ==== Sys2Proof/Machine/Control.lean ====
section
/-! DEFINITION. Control transfer: SRJ, JMA, JMP (spec/43_control_transfer.md). On entry `pc` is the address of the
executing instruction plus 1. A transfer never faults: a bad target faults at the next fetch (R150). -/

namespace Sys2Proof.Machine

/-- SRJ: `acc <- pc AND 0xFFF`, then `pc <- addr` (R151). -/
def execSrj (a : Addr) (s : State) : Host.Outcome State Fault Refusal :=
  .next ((s.setAcc (pcLow12 s.pc)).setPc (jumpTarget a))

/-- JMA: `pc <- addr` if bit 15 of `acc` is 1, else nothing (R152). -/
def execJma (a : Addr) (s : State) : Host.Outcome State Fault Refusal :=
  if accBit15 s then .next (s.setPc (jumpTarget a)) else noEffect s

/-- JMP: `pc <- addr` (R153). -/
def execJmp (a : Addr) (s : State) : Host.Outcome State Fault Refusal := .next (s.setPc (jumpTarget a))

end Sys2Proof.Machine
end

