-- ==== Sys2Proof/Machine/Cycle.lean ====
section
/-! DEFINITION. The operations without a datapath effect: HLT, HLT.NZ, NOP (spec/40_cycle.md). -/

namespace Sys2Proof.Machine

/-- HLT: `run <- HALTED` (R105). The termination test on the whole fetched word (R103) is made by the decoder, which
reads HLT from 0x0000 alone (log 20). -/
def execHlt (s : State) : Host.Outcome State Fault Refusal := .next (s.setRun .halted)

/-- HLT.NZ: nothing (R106). -/
def execHltNz (_a : Addr) (s : State) : Host.Outcome State Fault Refusal := noEffect s

/-- NOP: nothing (R107). -/
def execNop (_a : Addr) (s : State) : Host.Outcome State Fault Refusal := noEffect s

end Sys2Proof.Machine
end

