-- ==== Sys2Proof/Machine/DataMovement.lean ====
section
/-! DEFINITION. Data movement: LDA, STA, CSA (spec/42_data_movement.md). -/

namespace Sys2Proof.Machine

/-- LDA: `acc <- MemRead(addr)` (R140). -/
def execLda (a : Addr) (s : State) : Host.Outcome State Fault Refusal := accWithMem (fun _ m => m) a s

/-- STA: `MemWrite(addr, acc)` (R141). -/
def execSta (a : Addr) (s : State) : Host.Outcome State Fault Refusal := storeMem a s.acc s

/-- CSA: `acc <- cs` (R142). -/
def execCsa (_a : Addr) (s : State) : Host.Outcome State Fault Refusal := accOnly (fun _ => s.cs) s

end Sys2Proof.Machine
end

