-- ==== Sys2Proof/Machine/Io.lean ====
section
/-! DEFINITION. Character input and output: IN with the tape controller, and OUT (spec/44_io.md). -/

namespace Sys2Proof.Machine

/-- What step 1 of IN comes to (44_io.md R171, R172). -/
inductive RefillResult where
  /-- The request has no answer yet: the IN waits (R176). -/
  | waiting
  /-- The line source failed (R177). -/
  | failed (k : Fatal)
  /-- The tape as step 2 finds it. -/
  | ready (s : State)
  deriving DecidableEq, Repr

/-- Step 1 of IN: a line is requested exactly when `head == len(buf)` (R172). -/
def refill (s : State) : RefillResult :=
  if s.head = s.buf.length then
    match lineAnswer s.lines s.req with
    | none => .waiting
    | some .failure => .failed (.inputFailure s.req)
    | some (.line bytes) => .ready (s.refillWith bytes)
  else .ready s

/-- Steps 2 and 3 of IN: 0x0000 at the end of the buffer (R173), else the byte at the cursor, zero-extended, and the
cursor advanced (R175). A cursor beyond the buffer, which no run reaches (R29), reads as the end (log 18). -/
def deliver (s : State) : State :=
  match s.buf[s.head]? with
  | none => s.setAcc 0x0000#16
  | some b => (s.setAcc (zextByte b)).setHead (s.head + 1)

/-- IN (R171). While its request is unanswered it waits: nothing changes but that the core is waiting (R176, log 7). -/
def execInp (_a : Addr) (s : State) : Host.Outcome State Fault Refusal :=
  match refill s with
  | .waiting => .next (s.setPhase .awaitingLine)
  | .failed k => raise k (s.setPhase .ready)
  | .ready t => .next ((deliver t).setPhase .ready)

/-- OUT: `emit(acc[7:0])` (R180). It never faults and never blocks (R181, log 13). -/
def execOut (_a : Addr) (s : State) : Host.Outcome State Fault Refusal := .next (s.emit (lowByte s.acc))

end Sys2Proof.Machine
end

