-- ==== Sys2Proof/Machine/Dispatch.lean ====
section
/-! DEFINITION. The meaning of an instruction: one arm per constructor (spec/40_cycle.md R104). The state is the one
after the fetch. -/

namespace Sys2Proof.Machine

def exec (i : Instr) (s : State) : Host.Outcome State Fault Refusal :=
  match i with
  | .hlt => Sys2Proof.Machine.execHlt s
  | .hltNz a => Sys2Proof.Machine.execHltNz a s
  | .add a => Sys2Proof.Machine.execAdd a s
  | .xor a => Sys2Proof.Machine.execXor a s
  | .and a => Sys2Proof.Machine.execAnd a s
  | .or a => Sys2Proof.Machine.execOr a s
  | .not a => Sys2Proof.Machine.execNot a s
  | .lda a => Sys2Proof.Machine.execLda a s
  | .sta a => Sys2Proof.Machine.execSta a s
  | .srj a => Sys2Proof.Machine.execSrj a s
  | .jma a => Sys2Proof.Machine.execJma a s
  | .jmp a => Sys2Proof.Machine.execJmp a s
  | .inp a => Sys2Proof.Machine.execInp a s
  | .out a => Sys2Proof.Machine.execOut a s
  | .ral a => Sys2Proof.Machine.execRal a s
  | .csa a => Sys2Proof.Machine.execCsa a s
  | .nop a => Sys2Proof.Machine.execNop a s

end Sys2Proof.Machine
end

