-- ==== Sys2Proof/Machine/Environment.lean ====
section
/-! DEFINITION. What the host does to the core (spec/70_reset_and_hazards.md R230, R233, R237): load the image and
reset, before the run; answer a line request, during it. It has no other move (log 14). -/

namespace Sys2Proof.Machine

/-- The nonzero words of an image whose first word stands at address `a`, with their addresses. -/
def imageCells : Nat → List Word → List (Nat × Word)
  | _, [] => []
  | a, w :: ws => cellsCons a w (imageCells (a + 1) ws)

/-- Memory holding exactly the image: MEM_LEN is its length (10_state.md R26, R27). -/
def Memory.ofImage (image : List Word) : Memory := { len := image.length, cells := imageCells 0 image }

/-- Reset with any value of the open parameters (10_state.md R35, 70_reset_and_hazards.md R230). -/
def State.resetWith (p : Config.Params) : State where
  pc := 0
  ir := p.irReset
  acc := p.accReset
  cs := p.csValue
  run := .running
  mem := Memory.ofImage p.image
  buf := []
  head := 0
  req := 0
  out := []
  phase := .ready
  lines := p.lineSource

/-- The environment supplies the answer to the next line request that has none. A source that answers every request
for ever has nothing to add. -/
def LineSource.supply (src : LineSource) (a : LineAnswer) : LineSource :=
  match src.rest with
  | none => { src with answers := src.answers ++ [a] }
  | some _ => src

/-- The environment's move during a run (44_io.md R174, 70_reset_and_hazards.md R237 row "line request"). -/
def State.supplyLine (s : State) (a : LineAnswer) : State := { s with lines := LineSource.supply s.lines a }

/-- Memory of at least `a + 1` words whose word at `a` is `v`. -/
def Memory.place (m : Memory) (a : Nat) (v : Word) : Memory :=
  Memory.put { m with len := max m.len (a + 1) } a v

end Sys2Proof.Machine
end

