-- ==== Sys2Proof/Machine/Step.lean ====
section
/-! DEFINITION. The step (spec/40_cycle.md R100), and the placing of one instruction where the next step fetches. -/

namespace Sys2Proof.Machine

/-- One step. It is enabled only while `run` is RUNNING (R100; a halted or faulted core takes no step, 10_state.md R25).
A core whose IN waits for its line goes on with that IN and fetches nothing (44_io.md R176). Otherwise: fetch (a fetch
out of range raises), decode, execute. -/
def step (s : State) : Host.Outcome State Fault Refusal :=
  match s.run with
  | .halted => .fault .halted
  | .faulted k => .fault (.faulted k)
  | .running =>
    match s.phase with
    | .awaitingLine => exec (waitingInstr s) s
    | .ready =>
      match fetch s with
      | .error k => raise k s
      | .ok (w, t) => exec (decode w) t

/-- `s` with the instruction of bits `w` stored where the next step fetches, in a core that runs and is not waiting;
memory is lengthened to hold that word where it does not reach it. It stands for the loader (log 15). -/
def State.withFetchWord (s : State) (nbits w : Nat) : State :=
  { s with
    run := .running
    phase := .ready
    mem := s.mem.place s.pc (BitVec.ofNat 16 (w % 2 ^ nbits)) }

end Sys2Proof.Machine
end

