-- ==== Sys2Proof/Safety.lean ====
section
/-! DEFINITION. The terms statements are made in: the invariant of the machine, the states a run reaches, and repeated
execution of one instruction. -/

namespace Sys2Proof.Machine

/-- The core is between two steps of a run that goes on: the next step begins with a fetch. -/
abbrev State.Fetching (s : State) : Prop := s.run = .running ∧ s.phase = .ready

/-- The core runs and an IN waits for its line (60_exceptions.md R214 (3)). -/
abbrev State.Waiting (s : State) : Prop := s.run = .running ∧ s.phase = .awaitingLine

/-- The invariant. Canonical memory (log 1) of at most 4096 words (10_state.md R26, log 11); the cursor within the
buffer (R29, R36 (a)); `pc` at most max(MEM_LEN, 4095) (R36 (e)); and while an IN waits (44_io.md R176): the run goes
on, `ir` holds an IN word, and the tape is exhausted. -/
structure State.Inv (s : State) : Prop where
  memWf : s.mem.wf
  memLen : s.mem.len ≤ Config.memLenMax
  headLe : s.head ≤ s.buf.length
  pcLe : s.pc ≤ max s.mem.len 4095
  waiting : s.phase = .awaitingLine → s.run = .running ∧ opField s.ir = 11#4 ∧ s.head = s.buf.length

/-- The states a run from reset with parameters `p` reaches: by steps of the core and by answers of the line source,
in any order (70_reset_and_hazards.md R237). -/
inductive Reachable (p : Config.Params) : State → Prop where
  | reset : Reachable p (State.resetWith p)
  | step {s t : State} : Reachable p s → Sys2Proof.Machine.step s = .next t → Reachable p t
  | supply {s : State} (a : LineAnswer) : Reachable p s → Reachable p (s.supplyLine a)

/-- `exec i`, `n` times over, stopping at the first outcome that is no next state. -/
def execRepeat (i : Instr) : Nat → State → Host.Outcome State Fault Refusal
  | 0, s => .next s
  | n + 1, s =>
    match exec i s with
    | .next t => execRepeat i n t
    | .fault r => .fault r
    | .refused r => .refused r

/-- The six operations whose effect names `mem[addr]` (20_memory.md R54). -/
def accessesData : Instr → Bool
  | .hlt => false
  | .hltNz _ => false
  | .add _ => true
  | .xor _ => true
  | .and _ => true
  | .or _ => true
  | .not _ => false
  | .lda _ => true
  | .sta _ => true
  | .srj _ => false
  | .jma _ => false
  | .jmp _ => false
  | .inp _ => false
  | .out _ => false
  | .ral _ => false
  | .csa _ => false
  | .nop _ => false

end Sys2Proof.Machine
end

