-- ==== Sys2Proof/Certificates/Slice0/Obligations.lean ====
section
/-! DEFINITION. The statements for the provers. Each docstring names the rule of spec/ it formalises, and the log entry
where a clause rests on a choice of the model or on a decision the spec marks as its own. -/

open Sys2Proof Sys2Proof.Machine

/-! ## Encoding and decoding -/

/-- 30_encoding.md R81: the two fields of a word, as bits and as numbers. -/
def Obligations.FieldsSplitTheWord : Prop :=
  ∀ w : Word,
    (∀ i, i < 4 → (opField w).getLsbD i = w.getLsbD (12 + i)) ∧
    (∀ i, i < 12 → (addrField w).getLsbD i = w.getLsbD i) ∧
    (opField w).toNat = w.toNat / 4096 ∧ (addrField w).toNat = w.toNat % 4096 ∧
    w.toNat = (opField w).toNat * 4096 + (addrField w).toNat

/-- 30_encoding.md R83 (the opcode map), R85 (the split of operation 0), R89 (the word of a mnemonic): every row, at
every address. -/
def Obligations.DecodeFollowsTheOpcodeMap : Prop :=
  ∀ a : Addr,
    decode 0x0000#16 = .hlt ∧
    (a ≠ 0#12 → decode (BitVec.ofNat 16 a.toNat) = .hltNz a) ∧
    decode (BitVec.ofNat 16 (1 * 4096 + a.toNat)) = .add a ∧
    decode (BitVec.ofNat 16 (2 * 4096 + a.toNat)) = .xor a ∧
    decode (BitVec.ofNat 16 (3 * 4096 + a.toNat)) = .and a ∧
    decode (BitVec.ofNat 16 (4 * 4096 + a.toNat)) = .or a ∧
    decode (BitVec.ofNat 16 (5 * 4096 + a.toNat)) = .not a ∧
    decode (BitVec.ofNat 16 (6 * 4096 + a.toNat)) = .lda a ∧
    decode (BitVec.ofNat 16 (7 * 4096 + a.toNat)) = .sta a ∧
    decode (BitVec.ofNat 16 (8 * 4096 + a.toNat)) = .srj a ∧
    decode (BitVec.ofNat 16 (9 * 4096 + a.toNat)) = .jma a ∧
    decode (BitVec.ofNat 16 (10 * 4096 + a.toNat)) = .jmp a ∧
    decode (BitVec.ofNat 16 (11 * 4096 + a.toNat)) = .inp a ∧
    decode (BitVec.ofNat 16 (12 * 4096 + a.toNat)) = .out a ∧
    decode (BitVec.ofNat 16 (13 * 4096 + a.toNat)) = .ral a ∧
    decode (BitVec.ofNat 16 (14 * 4096 + a.toNat)) = .csa a ∧
    decode (BitVec.ofNat 16 (15 * 4096 + a.toNat)) = .nop a

/-- 30_encoding.md R80, R81, R85: no bit of an encoding is dropped. -/
def Obligations.DecodeOfEncodeIsTheInstruction : Prop :=
  ∀ i : Instr, i.wf = true → decode (encode i) = i

/-- 30_encoding.md R84, R86: decoding is total; every word is a well-formed instruction whose word it is. -/
def Obligations.EveryWordIsTheWordOfItsInstruction : Prop :=
  ∀ w : Word, (decode w).wf = true ∧ encode (decode w) = w

/-- 30_encoding.md R85: the split of operation 0 is on the whole word. -/
def Obligations.OnlyTheZeroWordHaltsAmongOperationZero : Prop :=
  (∀ s : State, ∃ t, exec (decode 0x0000#16) s = .next t ∧ t.run = .halted) ∧
  (∀ w : Word, decode w = .hlt ↔ w = 0x0000#16) ∧
  ∀ (w : Word) (s : State), w ≠ 0x0000#16 → opField w = 0#4 → exec (decode w) s = .next s

/-- 30_encoding.md R89 and R87: words the spec itself reads, written bit by bit. -/
def Obligations.WordsTheSpecReadsDecodeAsItReadsThem : Prop :=
  decode 0b0110000000001100#16 = .lda 0x00C#12 ∧
  decode 0b0001000000001011#16 = .add 0x00B#12 ∧
  decode 0b1001000000001010#16 = .jma 0x00A#12 ∧
  decode 0b0111000000001100#16 = .sta 0x00C#12 ∧
  decode 0b1100000000000000#16 = .out 0x000#12 ∧
  decode 0b1010000000000000#16 = .jmp 0x000#12 ∧
  decode 0b0000000000000001#16 = .hltNz 0x001#12 ∧
  decode 0b0111111111110010#16 = .sta 0xFF2#12 ∧
  decode 0b0000000000000000#16 = .hlt

/-! ## The step -/

/-- 40_cycle.md R100, R101, R102: a step of a core that fetches executes the decoded word in the state after the fetch,
in which `ir` is the word and `pc` the following address. `Fetching` speaks of the model's `phase` (log 7). -/
def Obligations.StepRunsTheDecodedInstruction : Prop :=
  ∀ (s : State) (w : Word), s.Fetching → s.mem.read s.pc = some w →
    step s = exec (decode w) { s with ir := w, pc := s.pc + 1 }

/-- 20_memory.md R51, 40_cycle.md R101, 60_exceptions.md R203: a fetch outside memory ends the run and changes nothing
else. That the rest stays is the spec's decision D9 (log 9); `Fetching` speaks of the model's `phase` (log 7). -/
def Obligations.FetchOutsideMemoryEndsTheRun : Prop :=
  ∀ s : State, s.Fetching → s.mem.len ≤ s.pc →
    step s = .next { s with run := .faulted (.memRange .fetch s.pc) }

/-- 10_state.md R25: a halted or faulted core takes no step, and what the model answers instead (its choice, log 8). -/
def Obligations.EndedRunTakesNoStep : Prop :=
  ∀ s : State, s.run ≠ .running →
    (∀ t, step s ≠ .next t) ∧ (s.run = .halted → step s = .fault .halted) ∧
    (∀ k, s.run = .faulted k → step s = .fault (.faulted k))

/-- 60_exceptions.md R205, 30_encoding.md R84: a running core has a next state, whatever it fetches: faults of the core
and the waiting of an IN are next states too (log 7, log 9). -/
def Obligations.RunningCoreHasANextState : Prop :=
  ∀ s : State, s.run = .running → ∃ t, step s = .next t

/-- 40_cycle.md R103: the run halts exactly when the word just fetched is zero, and the halting step does its fetch.
That the step fetches is said by the model's `phase` (log 7). -/
def Obligations.RunHaltsExactlyOnFetchingTheZeroWord : Prop :=
  ∀ s : State, s.run = .running →
    ((∃ t, step s = .next t ∧ t.run = .halted) ↔ (s.phase = .ready ∧ s.mem.read s.pc = some 0x0000#16)) ∧
    ∀ t, step s = .next t → t.run = .halted → t.ir = 0x0000#16 ∧ t.pc = s.pc + 1

/-- 40_cycle.md R108, which the spec marks as derived from its own rules: how `pc` moves over one step that fetches. That
a fetch that raises leaves `pc` is the spec's decision D9 (log 9); `Fetching` speaks of the model's `phase` (log 7). -/
def Obligations.ProgramCounterMovesAsTheSummarySays : Prop :=
  ∀ s t : State, s.Fetching → step s = .next t →
    (s.mem.read s.pc = none → t.pc = s.pc) ∧
    ∀ w, s.mem.read s.pc = some w →
      (∀ a, decode w = .srj a ∨ decode w = .jmp a ∨ (decode w = .jma a ∧ 0x8000 ≤ s.acc.toNat) → t.pc = a.toNat) ∧
      ((∀ a, decode w ≠ .srj a ∧ decode w ≠ .jmp a ∧ (decode w = .jma a → s.acc.toNat < 0x8000)) → t.pc = s.pc + 1)

/-- 20_memory.md R59, which the spec marks as derived from its own rules: a store to the following word is what the very
next step fetches and executes. `Fetching` speaks of the model's `phase` (log 7). -/
def Obligations.StoreIsSeenByTheVeryNextFetch : Prop :=
  ∀ (s : State) (a : Addr), s.Fetching → s.mem.wf → s.mem.read s.pc = some (encode (.sta a)) →
    effectiveAddr a = s.pc + 1 → effectiveAddr a < s.mem.len →
    ∃ t, step s = .next t ∧ t.Fetching ∧ t.acc = s.acc ∧ t.pc = s.pc + 1 ∧
      step t = exec (decode s.acc) { t with ir := s.acc, pc := s.pc + 2 }

/-- 40_cycle.md R108, 10_state.md R21: running past the last word is a fault at the next fetch, never a wrap to 0 and
not a halt. For every word `w` at the last address: the step has a next state; where that state still fetches with `pc`
at MEM_LEN, the step after it faults; `pc` is at MEM_LEN after every word but SRJ, JMP and a taken JMA; and the core
still fetches after every word but HLT, a data access out of range, and an IN that waits or fails. That `pc` does not
wrap is the spec's decision D3 (log 10), the state the fault leaves its decision D9 (log 9); `Fetching` speaks of the
model's `phase` (log 7). -/
def Obligations.RunningOffTheEndOfMemoryFaults : Prop :=
  ∀ (s : State) (w : Word), s.Fetching → s.pc + 1 = s.mem.len → s.mem.read s.pc = some w →
    ∃ t, step s = .next t ∧
      (t.Fetching → t.pc = s.mem.len → step t = .next { t with run := .faulted (.memRange .fetch s.mem.len) }) ∧
      ((∀ a, decode w ≠ .srj a ∧ decode w ≠ .jmp a ∧ (decode w = .jma a → s.acc.toNat < 0x8000)) → t.pc = s.mem.len) ∧
      (decode w ≠ .hlt → (accessesData (decode w) = true → effectiveAddr (addrOf (decode w)) < s.mem.len) →
        (∀ a, decode w = .inp a → s.head ≠ s.buf.length ∨ ∃ bytes, lineAnswer s.lines s.req = some (.line bytes)) →
        t.Fetching)

/-- 10_state.md R22: no program observes what `ir` held before a fetch that succeeds. `Fetching` speaks of the model's
`phase` (log 7). -/
def Obligations.OldInstructionRegisterIsUnobservable : Prop :=
  ∀ (s : State) (x : Word), s.Fetching → s.pc < s.mem.len → step { s with ir := x } = step s

/-! ## HLT, HLT.NZ, NOP -/

/-- 40_cycle.md R105. -/
def Obligations.HltHaltsAndChangesNothingElse : Prop :=
  ∀ s : State, encode .hlt = 0x0000#16 ∧ exec .hlt s = .next { s with run := .halted } ∧
    ∀ t, step { s with run := .halted } ≠ .next t

/-- 40_cycle.md R106. -/
def Obligations.HltNzHasNoEffect : Prop :=
  ∀ (a : Addr) (s : State), a ≠ 0#12 →
    (1 ≤ (encode (.hltNz a)).toNat ∧ (encode (.hltNz a)).toNat ≤ 0x0FFF) ∧ exec (.hltNz a) s = .next s

/-- 40_cycle.md R107: NOP has no effect, and behaves as HLT.NZ does. -/
def Obligations.NopHasNoEffect : Prop :=
  ∀ (a b : Addr) (s : State), (encode (.nop a)).toNat = 0xF000 + a.toNat ∧ exec (.nop a) s = .next s ∧
    exec (.hltNz b) s = exec (.nop a) s

/-! ## Arithmetic and logic -/

/-- 41_alu.md R121. -/
def Obligations.AddIsModulo65536 : Prop :=
  ∀ (a : Addr) (s : State),
    (encode (.add a)).toNat = 0x1000 + a.toNat ∧
    (∀ m, s.mem.read (effectiveAddr a) = some m →
      exec (.add a) s = .next { s with acc := BitVec.ofNat 16 ((s.acc.toNat + m.toNat) % 65536) }) ∧
    (s.mem.len ≤ effectiveAddr a →
      ∃ t, exec (.add a) s = .next t ∧ t.run = .faulted (.memRange .read a.toNat) ∧ t.acc = s.acc)

/-- 41_alu.md R122. -/
def Obligations.XorIsBitwise : Prop :=
  ∀ (a : Addr) (s : State),
    (encode (.xor a)).toNat = 0x2000 + a.toNat ∧
    (∀ m, s.mem.read (effectiveAddr a) = some m →
      ∃ v : Word, exec (.xor a) s = .next { s with acc := v } ∧
        ∀ i, i < 16 → v.getLsbD i = (s.acc.getLsbD i != m.getLsbD i)) ∧
    (s.mem.len ≤ effectiveAddr a →
      ∃ t, exec (.xor a) s = .next t ∧ t.run = .faulted (.memRange .read a.toNat) ∧ t.acc = s.acc)

/-- 41_alu.md R123. -/
def Obligations.AndIsBitwise : Prop :=
  ∀ (a : Addr) (s : State),
    (encode (.and a)).toNat = 0x3000 + a.toNat ∧
    (∀ m, s.mem.read (effectiveAddr a) = some m →
      ∃ v : Word, exec (.and a) s = .next { s with acc := v } ∧
        ∀ i, i < 16 → v.getLsbD i = (s.acc.getLsbD i && m.getLsbD i)) ∧
    (s.mem.len ≤ effectiveAddr a →
      ∃ t, exec (.and a) s = .next t ∧ t.run = .faulted (.memRange .read a.toNat) ∧ t.acc = s.acc)

/-- 41_alu.md R124. -/
def Obligations.OrIsBitwise : Prop :=
  ∀ (a : Addr) (s : State),
    (encode (.or a)).toNat = 0x4000 + a.toNat ∧
    (∀ m, s.mem.read (effectiveAddr a) = some m →
      ∃ v : Word, exec (.or a) s = .next { s with acc := v } ∧
        ∀ i, i < 16 → v.getLsbD i = (s.acc.getLsbD i || m.getLsbD i)) ∧
    (s.mem.len ≤ effectiveAddr a →
      ∃ t, exec (.or a) s = .next t ∧ t.run = .faulted (.memRange .read a.toNat) ∧ t.acc = s.acc)

/-- 41_alu.md R125: whatever the address field and whatever memory. -/
def Obligations.NotComplementsTheAccumulator : Prop :=
  ∀ (a : Addr) (s : State),
    (encode (.not a)).toNat = 0x5000 + a.toNat ∧
    exec (.not a) s = .next { s with acc := BitVec.ofNat 16 (0xFFFF - s.acc.toNat) }

/-- 41_alu.md R126: whatever the address field and whatever memory. -/
def Obligations.RalRotatesLeftByOne : Prop :=
  ∀ (a : Addr) (s : State),
    (encode (.ral a)).toNat = 0xD000 + a.toNat ∧
    ∃ v : Word, exec (.ral a) s = .next { s with acc := v } ∧ v.getLsbD 0 = s.acc.getLsbD 15 ∧
      ∀ i, 1 ≤ i → i < 16 → v.getLsbD i = s.acc.getLsbD (i - 1)

/-- 41_alu.md R127: sixteen rotations restore the accumulator, and two complements do. -/
def Obligations.RotationsAndComplementsUndoThemselves : Prop :=
  ∀ (a : Addr) (s : State), execRepeat (.ral a) 16 s = .next s ∧ execRepeat (.not a) 2 s = .next s

/-- 41_alu.md R127: `x + NOT_16(x) = 0xFFFF`, by NOT and then ADD of the word that was in the accumulator. -/
def Obligations.ValueAndComplementAddToAllOnes : Prop :=
  ∀ (a b : Addr) (s : State), s.mem.read (effectiveAddr a) = some s.acc →
    ∃ t, exec (.not b) s = .next t ∧ exec (.add a) t = .next { s with acc := 0xFFFF#16 }

/-! ## Data movement -/

/-- 42_data_movement.md R140. -/
def Obligations.LdaLoadsTheWholeWord : Prop :=
  ∀ (a : Addr) (s : State),
    (encode (.lda a)).toNat = 0x6000 + a.toNat ∧
    (∀ m, s.mem.read (effectiveAddr a) = some m → exec (.lda a) s = .next { s with acc := m }) ∧
    (s.mem.len ≤ effectiveAddr a →
      ∃ t, exec (.lda a) s = .next t ∧ t.run = .faulted (.memRange .read a.toNat) ∧ t.acc = s.acc)

/-- 42_data_movement.md R141, with its frame: no word but the one at the address changes, memory does not grow, no
register changes. The premise on memory is its canonical form (log 1). -/
def Obligations.StaStoresTheWholeWordAndNothingElse : Prop :=
  ∀ (a : Addr) (s : State), s.mem.wf →
    (encode (.sta a)).toNat = 0x7000 + a.toNat ∧ effectiveAddr a = a.toNat ∧
    (effectiveAddr a < s.mem.len →
      ∃ m : Memory, exec (.sta a) s = .next { s with mem := m } ∧ m.len = s.mem.len ∧
        m.read (effectiveAddr a) = some s.acc ∧ ∀ b, b ≠ effectiveAddr a → m.read b = s.mem.read b) ∧
    (s.mem.len ≤ effectiveAddr a →
      ∃ t, exec (.sta a) s = .next t ∧ t.run = .faulted (.memRange .write a.toNat) ∧ t.mem = s.mem)

/-- 42_data_movement.md R142: all 16 bits of `cs` go to `acc`, and `cs` is unchanged. -/
def Obligations.CsaCopiesTheStatusRegister : Prop :=
  ∀ (a : Addr) (s : State), (encode (.csa a)).toNat = 0xE000 + a.toNat ∧ exec (.csa a) s = .next { s with acc := s.cs }

/-- 20_memory.md R52, R53: after a store in range a load of that word reads it back, a load of another word in range reads
what was there, and a load outside memory raises. That the load that raises changes `run` alone is the spec's decision D9
(60_exceptions.md R203, log 9); the premise on memory is its canonical form (log 1). -/
def Obligations.LoadAfterStoreGivesTheStoredWord : Prop :=
  ∀ (a b : Addr) (s : State), s.mem.wf → effectiveAddr a < s.mem.len →
    ∃ t, exec (.sta a) s = .next t ∧
      exec (.lda b) t =
        if b = a then .next t
        else match s.mem.read (effectiveAddr b) with
          | some m => .next { t with acc := m }
          | none => .next { t with run := .faulted (.memRange .read b.toNat) }

/-! ## Control transfer -/

/-- 43_control_transfer.md R151. `pc` is the post-fetch value. -/
def Obligations.SrjSavesTheReturnAddressAndJumps : Prop :=
  ∀ (a : Addr) (s : State),
    (encode (.srj a)).toNat = 0x8000 + a.toNat ∧
    exec (.srj a) s = .next { s with acc := BitVec.ofNat 16 s.pc &&& 0x0FFF#16, pc := a.toNat }

/-- 43_control_transfer.md R152. -/
def Obligations.JmaJumpsExactlyOnBitFifteen : Prop :=
  ∀ (a : Addr) (s : State),
    (encode (.jma a)).toNat = 0x9000 + a.toNat ∧
    (0x8000 ≤ s.acc.toNat → exec (.jma a) s = .next { s with pc := a.toNat }) ∧
    (s.acc.toNat < 0x8000 → exec (.jma a) s = .next s)

/-- 43_control_transfer.md R153. -/
def Obligations.JmpJumps : Prop :=
  ∀ (a : Addr) (s : State),
    (encode (.jmp a)).toNat = 0xA000 + a.toNat ∧ exec (.jmp a) s = .next { s with pc := a.toNat }

/-- 43_control_transfer.md R154, which the spec marks as derived from its own rules: after SRJ,
adding the template 0xA000 makes the word of a JMP to the return address. -/
def Obligations.AddingTheTemplateMakesTheReturnJump : Prop :=
  ∀ (a k : Addr) (s : State), s.mem.read (effectiveAddr k) = some 0xA000#16 →
    ∃ t u, exec (.srj a) s = .next t ∧ exec (.add k) t = .next u ∧ decode u.acc = .jmp (BitVec.ofNat 12 s.pc)

/-- 43_control_transfer.md R150, 20_memory.md R51: a control transfer to a target outside memory (SRJ, JMP, a taken JMA)
does not fault, and the next step's fetch raises; a JMA that is not taken goes on at the following word whatever its
target. The state the fault leaves is the spec's decision D9 (log 9); `Fetching` speaks of the model's `phase` (log 7). -/
def Obligations.BadJumpTargetFaultsAtTheNextFetch : Prop :=
  ∀ (a : Addr) (s : State) (w : Word), s.Fetching → s.mem.read s.pc = some w →
    (s.mem.len ≤ a.toNat → (decode w = .srj a ∨ decode w = .jmp a ∨ (decode w = .jma a ∧ 0x8000 ≤ s.acc.toNat)) →
      ∃ t, step s = .next t ∧ t.Fetching ∧ t.pc = a.toNat ∧
        step t = .next { t with run := .faulted (.memRange .fetch a.toNat) }) ∧
    (decode w = .jma a → s.acc.toNat < 0x8000 → step s = .next { s with ir := w, pc := s.pc + 1 })

/-! ## Input and output -/

/-- 44_io.md R171 and, for the Failure answer, R177: the three steps of IN when the request, where one is made, is
answered. The model's own field `phase` is `ready` afterwards (log 7); for a core that fetches it is so before too. That
a failed IN changes nothing else is the spec's decision D9 (60_exceptions.md R203, log 9). The clauses cover every cursor
within the buffer; a cursor beyond it is log 18. -/
def Obligations.InRefillsThenDeliversOneByte : Prop :=
  ∀ (a : Addr) (s : State),
    (encode (.inp a)).toNat = 0xB000 + a.toNat ∧
    (∀ b, s.head ≠ s.buf.length → s.buf[s.head]? = some b →
      exec (.inp a) s = .next { s with acc := BitVec.ofNat 16 b.toNat, head := s.head + 1, phase := .ready }) ∧
    (∀ b bs, s.head = s.buf.length → lineAnswer s.lines s.req = some (.line (b :: bs)) →
      exec (.inp a) s = .next { s with acc := BitVec.ofNat 16 b.toNat, buf := b :: bs, head := 1, req := s.req + 1, phase := .ready }) ∧
    (s.head = s.buf.length → lineAnswer s.lines s.req = some (.line []) →
      exec (.inp a) s = .next { s with acc := 0x0000#16, buf := [], head := 0, req := s.req + 1, phase := .ready }) ∧
    (s.head = s.buf.length → lineAnswer s.lines s.req = some .failure →
      exec (.inp a) s = .next { s with run := .faulted (.inputFailure s.req), phase := .ready })

/-- 44_io.md R173: end of input gives 0, is no error, and is not sticky: the next IN makes the next request. -/
def Obligations.EndOfInputIsNotSticky : Prop :=
  ∀ (a c : Addr) (s : State) (b : Byte) (bs : List Byte), s.head = s.buf.length →
    lineAnswer s.lines s.req = some (.line []) → lineAnswer s.lines (s.req + 1) = some (.line (b :: bs)) →
    ∃ t, exec (.inp a) s = .next t ∧ t.acc = 0x0000#16 ∧ t.run = s.run ∧ t.buf = [] ∧ t.head = 0 ∧ t.req = s.req + 1 ∧
      exec (.inp c) t = .next { t with acc := BitVec.ofNat 16 b.toNat, buf := b :: bs, head := 1, req := s.req + 2 }

/-- 44_io.md R177, 60_exceptions.md R203, row `InputFailure(n)`: a failed IN changes `run` and nothing else but the model's
`phase` (log 7); a step that fetched it leaves `ir` the IN word and `pc` the following address; a waiting core faults the
same way when the answer is Failure. That the rest stays is the spec's decision D9 (log 9). -/
def Obligations.LineSourceFailureFaultsTheIn : Prop :=
  ∀ (a : Addr) (s : State), s.head = s.buf.length → lineAnswer s.lines s.req = some .failure →
    exec (.inp a) s = .next { s with run := .faulted (.inputFailure s.req), phase := .ready } ∧
    (∀ w, s.Fetching → s.mem.read s.pc = some w → decode w = .inp a →
      step s = .next { s with ir := w, pc := s.pc + 1, run := .faulted (.inputFailure s.req) }) ∧
    (s.Waiting → step s = .next { s with run := .faulted (.inputFailure s.req), phase := .ready })

/-- 44_io.md R176: an IN whose request is unanswered waits with nothing changed but the model's field `phase` (log 7);
a waiting core stays as it is until the line source answers, and then goes on with that IN. -/
def Obligations.InWaitsUntilTheLineSourceAnswers : Prop :=
  ∀ (a : Addr) (s : State), s.head = s.buf.length → lineAnswer s.lines s.req = none →
    exec (.inp a) s = .next { s with phase := .awaitingLine } ∧
    (s.Waiting → step s = .next s ∧
      ∀ r, s.lines.answers.length = s.req → step (s.supplyLine r) = exec (.inp a) (s.supplyLine r) ∧
        lineAnswer (s.supplyLine r).lines s.req = some r)

/-- 44_io.md R175, R172: the undelivered bytes of a line come in order, each once, without a request. `n + 1` INs from a
cursor with at least `n + 1` bytes left; the premise on the model's `phase` is log 7. -/
def Obligations.BufferedBytesAreDeliveredInOrder : Prop :=
  ∀ (a : Addr) (s : State) (n : Nat) (b : Byte), s.phase = .ready → s.buf[s.head + n]? = some b →
    execRepeat (.inp a) (n + 1) s = .next { s with acc := BitVec.ofNat 16 b.toNat, head := s.head + n + 1 }

/-- 44_io.md R180. That OUT never faults is the spec's decision D15 (log 13). -/
def Obligations.OutEmitsTheLowByte : Prop :=
  ∀ (a : Addr) (s : State),
    (encode (.out a)).toNat = 0xC000 + a.toNat ∧
    exec (.out a) s = .next { s with out := s.out ++ [BitVec.ofNat 8 (s.acc.toNat % 256)] }

/-! ## Faults -/

/-- 60_exceptions.md R203, row `MemRange(READ, a)`: a data read outside memory changes `run` and nothing else. That the
rest stays is the spec's decision D9 (log 9). -/
def Obligations.DataReadOutsideMemoryChangesOnlyRun : Prop :=
  ∀ (a : Addr) (s : State) (i : Instr), s.mem.len ≤ effectiveAddr a →
    (i = .add a ∨ i = .xor a ∨ i = .and a ∨ i = .or a ∨ i = .lda a) →
    exec i s = .next { s with run := .faulted (.memRange .read a.toNat) }

/-- 60_exceptions.md R203, row `MemRange(WRITE, a)`: a store outside memory changes `run` and nothing else (D9, log 9). -/
def Obligations.StoreOutsideMemoryChangesOnlyRun : Prop :=
  ∀ (a : Addr) (s : State), s.mem.len ≤ effectiveAddr a →
    exec (.sta a) s = .next { s with run := .faulted (.memRange .write a.toNat) }

/-- 60_exceptions.md R200, R201: what an instruction's fault says is true of the state, and which instruction raised it.
That no other instruction raises one is the spec's decision D11 (log 12); the names are D10 (log 24). -/
def Obligations.FaultsComeOnlyFromTheInstructionsTheTableNames : Prop :=
  ∀ (i : Instr) (s t : State) (k : Fatal), s.run = .running → exec i s = .next t → t.run = .faulted k →
    (k = .memRange .read (addrOf i).toNat ∧ s.mem.len ≤ (addrOf i).toNat ∧ accessesData i = true ∧ (∀ a, i ≠ .sta a)) ∨
    (k = .memRange .write (addrOf i).toNat ∧ s.mem.len ≤ (addrOf i).toNat ∧ ∃ a, i = .sta a) ∨
    (k = .inputFailure s.req ∧ s.head = s.buf.length ∧ lineAnswer s.lines s.req = some .failure ∧ ∃ a, i = .inp a)

/-- 20_memory.md R54: the other ten operations (eleven rows of the table) make no data access: memory, its length
included, has no part in what they do, and they leave it alone. The spec's decision D11 (log 12). -/
def Obligations.OtherInstructionsDoNotAccessMemory : Prop :=
  ∀ (i : Instr) (s t : State) (m : Memory), accessesData i = false → exec i s = .next t →
    t.mem = s.mem ∧ exec i { s with mem := m } = .next { t with mem := m }

/-- 60_exceptions.md R201: with MEM_LEN = 4096 no data access raises, since every 12-bit address is in range. -/
def Obligations.NoInstructionRaisesMemRangeInFullMemory : Prop :=
  ∀ (i : Instr) (s t : State) (k : Access) (x : Nat), s.mem.len = 4096 → s.run = .running → exec i s = .next t →
    t.run ≠ .faulted (.memRange k x)

/-! ## The whole machine -/

/-- 10_state.md R36 (a), (e), R29, R26 and the model's canonical memory (log 1) and waiting (log 7): every step keeps the
invariant. -/
def Obligations.StepKeepsTheInvariant : Prop :=
  ∀ s t : State, s.Inv → step s = .next t → t.Inv

/-- 10_state.md R35, R26: the invariant holds after reset, for every value of the open parameters with MEM_LEN at most
4096, and for the named values of `State.reset` (logs 2 to 6). -/
def Obligations.ResetMeetsTheInvariant : Prop :=
  (∀ p : Config.Params, p.wf = true → (State.resetWith p).Inv) ∧ State.reset.Inv

/-- 10_state.md R36 (a), (c), (d), (e), which the spec marks as derived from its own rules: in every
state reachable from reset, whatever the parameters and whenever the line source answers. The clauses of `Inv` on canonical memory and on waiting are the model's (logs 1 and 7). -/
def Obligations.ReachableStatesKeepTheInvariantAndTheConstants : Prop :=
  ∀ (p : Config.Params) (s : State), p.wf = true → Reachable p s →
    s.Inv ∧ s.cs = p.csValue ∧ s.mem.len = p.image.length ∧ s.pc ≤ 4096

/-- 10_state.md R27, R35, 70_reset_and_hazards.md R230, R231: what reset leaves, for every value of the open parameters.
The empty tape is the spec's decision D7 (log 16). -/
def Obligations.ResetLoadsTheImageAndStartsAtWordZero : Prop :=
  ∀ p : Config.Params,
    (∀ a, (State.resetWith p).mem.read a = p.image[a]?) ∧ (State.resetWith p).mem.len = p.image.length ∧
    (State.resetWith p).pc = 0 ∧ (State.resetWith p).Fetching ∧ (State.resetWith p).ir = p.irReset ∧
    (State.resetWith p).acc = p.accReset ∧ (State.resetWith p).cs = p.csValue ∧ (State.resetWith p).buf = [] ∧
    (State.resetWith p).head = 0 ∧ (State.resetWith p).req = 0 ∧ (State.resetWith p).out = []

/-- 10_state.md R24, R26: no step writes `cs`, changes MEM_LEN, or (log 6) the line source. -/
def Obligations.StepNeverChangesTheConstants : Prop :=
  ∀ s t : State, step s = .next t → t.cs = s.cs ∧ t.mem.len = s.mem.len ∧ t.lines = s.lines

/-- 10_state.md R36 (g), (h): the output history grows at its end, by at most a byte a step, and `req` by at most 1. -/
def Obligations.OutputAndRequestsOnlyGrow : Prop :=
  ∀ s t : State, step s = .next t →
    (t.out = s.out ∨ ∃ b, t.out = s.out ++ [b]) ∧ (t.req = s.req ∨ t.req = s.req + 1)

/-- 10_state.md R34 (a summary the spec marks as derived), column `mem[addr]`: only STA changes memory, and only the word it
names. The premise on memory is its canonical form (log 1). -/
def Obligations.OnlyStaChangesMemory : Prop :=
  ∀ (s t : State) (b : Nat), s.mem.wf → step s = .next t → t.mem.read b ≠ s.mem.read b →
    s.Fetching ∧ ∃ w a, s.mem.read s.pc = some w ∧ decode w = .sta a ∧ effectiveAddr a = b ∧ t.mem.read b = some s.acc

/-- 10_state.md R34 (a summary the spec marks as derived), columns tape and `out`: only IN touches the tape, only
OUT emits. Whether the step fetched or goes on with a waiting IN is the model's `phase` (log 7). -/
def Obligations.OnlyInTouchesTheTapeAndOnlyOutEmits : Prop :=
  ∀ s t : State, step s = .next t →
    ((t.buf ≠ s.buf ∨ t.head ≠ s.head ∨ t.req ≠ s.req) →
      s.phase = .awaitingLine ∨ ∃ w a, s.mem.read s.pc = some w ∧ decode w = .inp a) ∧
    (t.out ≠ s.out →
      s.phase = .ready ∧ ∃ w a, s.mem.read s.pc = some w ∧ decode w = .out a ∧
        t.out = s.out ++ [BitVec.ofNat 8 (s.acc.toNat % 256)])

/-- 10_state.md R34 (a summary the spec marks as derived), column `acc`, and R23: HLT, HLT.NZ, STA, JMA,
JMP, OUT and NOP leave the accumulator alone. -/
def Obligations.AccumulatorIsWrittenOnlyByItsWriters : Prop :=
  ∀ (i : Instr) (s t : State), exec i s = .next t → t.acc ≠ s.acc →
    accessesData i = true ∧ (∀ a, i ≠ .sta a) ∨
    ∃ a, i = .not a ∨ i = .srj a ∨ i = .inp a ∨ i = .ral a ∨ i = .csa a

/-- 10_state.md R31: nothing in the core reads the output history: a run with other bytes emitted before it goes the
same way. -/
def Obligations.OutputHistoryIsNeverRead : Prop :=
  ∀ (s t : State) (o : List Byte), step s = .next t → step { s with out := o ++ s.out } = .next { t with out := o ++ t.out }

/-- 10_state.md R24: CSA is the only access to `cs`: a step that executes no CSA (it fetches another word, or goes on with
a waiting IN, log 7) goes the same way whatever `cs` holds. -/
def Obligations.StatusRegisterIsReadOnlyByCsa : Prop :=
  ∀ (s t : State) (c : Word), (s.phase = .ready → ∀ w a, s.mem.read s.pc = some w → decode w ≠ .csa a) → step s = .next t →
    step { s with cs := c } = .next { t with cs := c }
end

