-- ==== Sys2Proof/Laws/Memory.lean ====
section
/-! SUPPORT. Memory: a read after a write, the words a write leaves alone, and the canonical form, which every memory
operation keeps. -/

namespace Sys2Proof.Machine

/-! ## The list of words -/

/-- The canonical form of a list of words above address `lo`, the shape inductions over `cellsSet` need. -/
def CellsAbove (lo : Nat) (cs : List (Nat × Word)) : Prop :=
  cs.Pairwise (fun c d => c.1 < d.1) ∧ ∀ c ∈ cs, lo ≤ c.1 ∧ c.2 ≠ 0#16

theorem cellsAbove_nil (lo : Nat) : CellsAbove lo [] := by simp [CellsAbove]

theorem cellsAbove_cons {lo a : Nat} {v : Word} {cs : List (Nat × Word)} :
    CellsAbove lo ((a, v) :: cs) ↔ lo ≤ a ∧ v ≠ 0#16 ∧ CellsAbove (a + 1) cs := by
  simp only [CellsAbove, List.pairwise_cons, List.mem_cons, forall_eq_or_imp]
  constructor
  · rintro ⟨⟨h1, h2⟩, ⟨h3, h4⟩, h5⟩
    exact ⟨h3, h4, h2, fun c hc => ⟨h1 c hc, (h5 c hc).2⟩⟩
  · rintro ⟨h1, h2, h3, h4⟩
    exact ⟨⟨fun c hc => (h4 c hc).1, h3⟩, ⟨h1, h2⟩,
      fun c hc => ⟨Nat.le_trans h1 (Nat.le_of_succ_le (h4 c hc).1), (h4 c hc).2⟩⟩

theorem CellsAbove.mono {lo lo' : Nat} {cs : List (Nat × Word)} (h : CellsAbove lo cs) (hle : lo' ≤ lo) :
    CellsAbove lo' cs :=
  ⟨h.1, fun c hc => ⟨Nat.le_trans hle (h.2 c hc).1, (h.2 c hc).2⟩⟩

/-- An address below the lowest listed one reads as 0x0000. -/
theorem CellsAbove.get_below {lo a : Nat} {cs : List (Nat × Word)} (h : CellsAbove lo cs) (ha : a < lo) :
    cellsGet cs a = 0#16 := by
  induction cs generalizing lo with
  | nil => rfl
  | cons c cs ih =>
    obtain ⟨h1, -, h3⟩ := cellsAbove_cons.1 h
    have hne : a ≠ c.1 := by omega
    simpa [cellsGet, hne] using ih h3 (by omega)

theorem cellsCons_above {lo a : Nat} {v : Word} {cs : List (Nat × Word)} (ha : lo ≤ a) (h : CellsAbove (a + 1) cs) :
    CellsAbove lo (cellsCons a v cs) := by
  unfold cellsCons
  split
  · exact h.mono (by omega)
  · exact cellsAbove_cons.2 ⟨ha, ‹_›, h⟩

theorem cellsGet_cellsCons {a : Nat} {v : Word} {cs : List (Nat × Word)} (h : CellsAbove (a + 1) cs) (b : Nat) :
    cellsGet (cellsCons a v cs) b = if b = a then v else cellsGet cs b := by
  unfold cellsCons
  by_cases hv : v = 0#16
  · by_cases hb : b = a
    · subst hb
      simp [hv, h.get_below (Nat.lt_succ_self b)]
    · simp [hv, hb]
  · simp [hv, cellsGet]

/-- `cellsSet` keeps the canonical form. -/
theorem cellsSet_above {lo a : Nat} (v : Word) {cs : List (Nat × Word)} (ha : lo ≤ a) (h : CellsAbove lo cs) :
    CellsAbove lo (cellsSet cs a v) := by
  induction cs generalizing lo with
  | nil => exact cellsCons_above ha (cellsAbove_nil _)
  | cons c cs ih =>
    obtain ⟨b, w⟩ := c
    obtain ⟨h1, h2, h3⟩ := cellsAbove_cons.1 h
    unfold cellsSet
    split
    · exact cellsCons_above ha (cellsAbove_cons.2 ⟨‹_›, h2, h3⟩)
    · split
      · subst_vars; exact cellsCons_above ha h3
      · exact cellsAbove_cons.2 ⟨h1, h2, ih (by omega) h3⟩

/-- What every address reads after `cellsSet`. -/
theorem cellsGet_cellsSet {lo : Nat} {cs : List (Nat × Word)} (h : CellsAbove lo cs) (a : Nat) (v : Word) (b : Nat) :
    cellsGet (cellsSet cs a v) b = if b = a then v else cellsGet cs b := by
  induction cs generalizing lo with
  | nil => exact cellsGet_cellsCons (cellsAbove_nil _) b
  | cons c cs ih =>
    obtain ⟨k, w⟩ := c
    obtain ⟨-, h2, h3⟩ := cellsAbove_cons.1 h
    unfold cellsSet
    split
    · exact cellsGet_cellsCons (cellsAbove_cons.2 ⟨‹_›, h2, h3⟩) b
    · split
      · subst_vars
        rw [cellsGet_cellsCons h3 b]
        by_cases hb : b = k <;> simp [cellsGet, hb]
      · simp only [cellsGet, ih h3]
        by_cases hb : b = a
        · subst hb; simp [*]
        · simp [hb]

/-- `cellsSet` lists no address but the one set and those listed before. -/
theorem mem_cellsSet {cs : List (Nat × Word)} {a : Nat} {v : Word} {c : Nat × Word} (h : c ∈ cellsSet cs a v) :
    c.1 = a ∨ c ∈ cs := by
  induction cs with
  | nil => unfold cellsSet cellsCons at h; split at h <;> simp_all
  | cons d cs ih =>
    obtain ⟨k, w⟩ := d
    unfold cellsSet cellsCons at h
    split at h
    · split at h
      · exact .inr h
      · rcases List.mem_cons.1 h with rfl | h
        · exact .inl rfl
        · exact .inr h
    · split at h
      · split at h
        · exact .inr (List.mem_cons_of_mem _ h)
        · rcases List.mem_cons.1 h with rfl | h
          · exact .inl rfl
          · exact .inr (List.mem_cons_of_mem _ h)
      · rcases List.mem_cons.1 h with rfl | h
        · exact .inr List.mem_cons_self
        · exact (ih h).imp_right (List.mem_cons_of_mem _)

/-! ## Memory -/

theorem Memory.wf.above {m : Memory} (h : m.wf) : CellsAbove 0 m.cells :=
  ⟨h.1, fun c hc => ⟨Nat.zero_le _, (h.2 c hc).2⟩⟩

/-- A word is read exactly below MEM_LEN. -/
theorem Memory.read_eq_none_iff {m : Memory} {a : Nat} : m.read a = none ↔ m.len ≤ a := by
  simp [Memory.read]

theorem Memory.read_isSome_iff {m : Memory} {a : Nat} : (∃ w, m.read a = some w) ↔ a < m.len := by
  simp [Memory.read]

theorem Memory.lt_of_read {m : Memory} {a : Nat} {w : Word} (h : m.read a = some w) : a < m.len :=
  Memory.read_isSome_iff.1 ⟨w, h⟩

@[simp] theorem Memory.put_len (m : Memory) (a : Nat) (v : Word) : (m.put a v).len = m.len := rfl

theorem Memory.put_wf {m : Memory} (h : m.wf) {a : Nat} (ha : a < m.len) (v : Word) : (m.put a v).wf := by
  have key : CellsAbove 0 (m.put a v).cells := cellsSet_above v (Nat.zero_le a) h.above
  refine ⟨key.1, fun c hc => ⟨?_, (key.2 c hc).2⟩⟩
  rcases mem_cellsSet hc with hca | hcm
  · simpa [hca] using ha
  · exact (h.2 c hcm).1

/-- What every address reads after a word is replaced. -/
theorem Memory.read_put {m : Memory} (h : m.wf) (a : Nat) (v : Word) (b : Nat) :
    (m.put a v).read b = if b = a ∧ a < m.len then some v else m.read b := by
  have hg : cellsGet (m.put a v).cells b = if b = a then v else cellsGet m.cells b := cellsGet_cellsSet h.above a v b
  simp only [Memory.read, Memory.put_len, hg]
  by_cases hb : b = a
  · subst hb; by_cases hl : b < m.len <;> simp [hl]
  · simp [hb]

theorem Memory.write_eq_none_iff {m : Memory} {a : Nat} {v : Word} : m.write a v = none ↔ m.len ≤ a := by
  simp [Memory.write]

/-- A store that succeeds is in range and replaces the one word. -/
theorem Memory.write_eq_some_iff {m m' : Memory} {a : Nat} {v : Word} :
    m.write a v = some m' ↔ a < m.len ∧ m' = m.put a v := by
  unfold Memory.write
  split <;> simp_all [eq_comm]

/-- A store keeps the canonical form. -/
theorem Memory.write_wf {m m' : Memory} (h : m.wf) {a : Nat} {v : Word} (hw : m.write a v = some m') : m'.wf := by
  obtain ⟨ha, rfl⟩ := Memory.write_eq_some_iff.1 hw
  exact Memory.put_wf h ha v

/-- Lengthening memory keeps the canonical form and the words that were there. -/
theorem Memory.place_wf {m : Memory} (h : m.wf) (a : Nat) (v : Word) : (m.place a v).wf := by
  refine Memory.put_wf (m := { m with len := max m.len (a + 1) }) ⟨h.1, fun c hc => ⟨?_, (h.2 c hc).2⟩⟩ ?_ v
  · exact lt_of_lt_of_le (h.2 c hc).1 (le_max_left _ _)
  · exact lt_of_lt_of_le (Nat.lt_succ_self a) (le_max_right _ _)

/-- The placed word is the one read at its address. -/
theorem Memory.read_place {m : Memory} (h : m.wf) (a : Nat) (v : Word) : (m.place a v).read a = some v := by
  have hwf : Memory.wf { m with len := max m.len (a + 1) } :=
    ⟨h.1, fun c hc => ⟨lt_of_lt_of_le (h.2 c hc).1 (le_max_left _ _), (h.2 c hc).2⟩⟩
  have := Memory.read_put hwf a v a
  simpa [Memory.place] using this

/-! ## The image -/

theorem imageCells_above (a : Nat) (ws : List Word) : CellsAbove a (imageCells a ws) := by
  induction ws generalizing a with
  | nil => exact cellsAbove_nil a
  | cons w ws ih => exact cellsCons_above (Nat.le_refl a) (ih (a + 1))

theorem imageCells_lt {a : Nat} {ws : List Word} {c : Nat × Word} (h : c ∈ imageCells a ws) : c.1 < a + ws.length := by
  induction ws generalizing a with
  | nil => simp [imageCells] at h
  | cons w ws ih =>
    unfold imageCells cellsCons at h
    split at h
    · have := ih h; simp only [List.length_cons]; omega
    · rcases List.mem_cons.1 h with rfl | h
      · simp
      · have := ih h; simp only [List.length_cons]; omega

theorem Memory.ofImage_wf (image : List Word) : (Memory.ofImage image).wf :=
  ⟨(imageCells_above 0 image).1, fun c hc =>
    ⟨by simpa [Memory.ofImage] using imageCells_lt hc, ((imageCells_above 0 image).2 c hc).2⟩⟩

theorem cellsGet_imageCells (a : Nat) (ws : List Word) (n : Nat) (h : n < ws.length) :
    cellsGet (imageCells a ws) (a + n) = ws[n] := by
  induction ws generalizing a n with
  | nil => simp at h
  | cons w ws ih =>
    rw [imageCells, cellsGet_cellsCons (imageCells_above (a + 1) ws)]
    cases n with
    | zero => simp
    | succ n =>
      have := ih (a + 1) n (by simpa using h)
      rw [show a + (n + 1) = a + 1 + n by omega]
      simpa [show ¬ (a + 1 + n = a) by omega] using this

/-- An image of zero words lists nothing. -/
theorem imageCells_replicate_zero (a n : Nat) : imageCells a (List.replicate n 0#16) = [] := by
  induction n generalizing a with
  | zero => rfl
  | succ n ih => simp [List.replicate_succ, imageCells, cellsCons, ih]

/-! ## Reset -/

theorem State.reset_mem_wf : State.reset.mem.wf := by simp [State.reset, Memory.wf]

/-- `State.reset` is the reset with the parameters `Config.defaults` names. -/
theorem State.reset_eq_resetWith : State.reset = State.resetWith Config.defaults := by
  simp [State.reset, State.resetWith, Config.defaults, Memory.ofImage, imageCells_replicate_zero]

end Sys2Proof.Machine
end

