-- ==== Sys2Proof/Laws/State.lean ====
section
/-! SUPPORT. One lemma per field of State per update, each true by rfl. -/

namespace Sys2Proof.Machine

variable (s : State)

@[simp] theorem State.setPc_pc (v : Nat) : (s.setPc v).pc = v := rfl
@[simp] theorem State.setPc_ir (v : Nat) : (s.setPc v).ir = s.ir := rfl
@[simp] theorem State.setPc_acc (v : Nat) : (s.setPc v).acc = s.acc := rfl
@[simp] theorem State.setPc_cs (v : Nat) : (s.setPc v).cs = s.cs := rfl
@[simp] theorem State.setPc_run (v : Nat) : (s.setPc v).run = s.run := rfl
@[simp] theorem State.setPc_mem (v : Nat) : (s.setPc v).mem = s.mem := rfl
@[simp] theorem State.setPc_buf (v : Nat) : (s.setPc v).buf = s.buf := rfl
@[simp] theorem State.setPc_head (v : Nat) : (s.setPc v).head = s.head := rfl
@[simp] theorem State.setPc_req (v : Nat) : (s.setPc v).req = s.req := rfl
@[simp] theorem State.setPc_out (v : Nat) : (s.setPc v).out = s.out := rfl
@[simp] theorem State.setPc_phase (v : Nat) : (s.setPc v).phase = s.phase := rfl
@[simp] theorem State.setPc_lines (v : Nat) : (s.setPc v).lines = s.lines := rfl

@[simp] theorem State.setIr_pc (v : Word) : (s.setIr v).pc = s.pc := rfl
@[simp] theorem State.setIr_ir (v : Word) : (s.setIr v).ir = v := rfl
@[simp] theorem State.setIr_acc (v : Word) : (s.setIr v).acc = s.acc := rfl
@[simp] theorem State.setIr_cs (v : Word) : (s.setIr v).cs = s.cs := rfl
@[simp] theorem State.setIr_run (v : Word) : (s.setIr v).run = s.run := rfl
@[simp] theorem State.setIr_mem (v : Word) : (s.setIr v).mem = s.mem := rfl
@[simp] theorem State.setIr_buf (v : Word) : (s.setIr v).buf = s.buf := rfl
@[simp] theorem State.setIr_head (v : Word) : (s.setIr v).head = s.head := rfl
@[simp] theorem State.setIr_req (v : Word) : (s.setIr v).req = s.req := rfl
@[simp] theorem State.setIr_out (v : Word) : (s.setIr v).out = s.out := rfl
@[simp] theorem State.setIr_phase (v : Word) : (s.setIr v).phase = s.phase := rfl
@[simp] theorem State.setIr_lines (v : Word) : (s.setIr v).lines = s.lines := rfl

@[simp] theorem State.setAcc_pc (v : Word) : (s.setAcc v).pc = s.pc := rfl
@[simp] theorem State.setAcc_ir (v : Word) : (s.setAcc v).ir = s.ir := rfl
@[simp] theorem State.setAcc_acc (v : Word) : (s.setAcc v).acc = v := rfl
@[simp] theorem State.setAcc_cs (v : Word) : (s.setAcc v).cs = s.cs := rfl
@[simp] theorem State.setAcc_run (v : Word) : (s.setAcc v).run = s.run := rfl
@[simp] theorem State.setAcc_mem (v : Word) : (s.setAcc v).mem = s.mem := rfl
@[simp] theorem State.setAcc_buf (v : Word) : (s.setAcc v).buf = s.buf := rfl
@[simp] theorem State.setAcc_head (v : Word) : (s.setAcc v).head = s.head := rfl
@[simp] theorem State.setAcc_req (v : Word) : (s.setAcc v).req = s.req := rfl
@[simp] theorem State.setAcc_out (v : Word) : (s.setAcc v).out = s.out := rfl
@[simp] theorem State.setAcc_phase (v : Word) : (s.setAcc v).phase = s.phase := rfl
@[simp] theorem State.setAcc_lines (v : Word) : (s.setAcc v).lines = s.lines := rfl

@[simp] theorem State.setRun_pc (v : RunStatus) : (s.setRun v).pc = s.pc := rfl
@[simp] theorem State.setRun_ir (v : RunStatus) : (s.setRun v).ir = s.ir := rfl
@[simp] theorem State.setRun_acc (v : RunStatus) : (s.setRun v).acc = s.acc := rfl
@[simp] theorem State.setRun_cs (v : RunStatus) : (s.setRun v).cs = s.cs := rfl
@[simp] theorem State.setRun_run (v : RunStatus) : (s.setRun v).run = v := rfl
@[simp] theorem State.setRun_mem (v : RunStatus) : (s.setRun v).mem = s.mem := rfl
@[simp] theorem State.setRun_buf (v : RunStatus) : (s.setRun v).buf = s.buf := rfl
@[simp] theorem State.setRun_head (v : RunStatus) : (s.setRun v).head = s.head := rfl
@[simp] theorem State.setRun_req (v : RunStatus) : (s.setRun v).req = s.req := rfl
@[simp] theorem State.setRun_out (v : RunStatus) : (s.setRun v).out = s.out := rfl
@[simp] theorem State.setRun_phase (v : RunStatus) : (s.setRun v).phase = s.phase := rfl
@[simp] theorem State.setRun_lines (v : RunStatus) : (s.setRun v).lines = s.lines := rfl

@[simp] theorem State.setMem_pc (v : Memory) : (s.setMem v).pc = s.pc := rfl
@[simp] theorem State.setMem_ir (v : Memory) : (s.setMem v).ir = s.ir := rfl
@[simp] theorem State.setMem_acc (v : Memory) : (s.setMem v).acc = s.acc := rfl
@[simp] theorem State.setMem_cs (v : Memory) : (s.setMem v).cs = s.cs := rfl
@[simp] theorem State.setMem_run (v : Memory) : (s.setMem v).run = s.run := rfl
@[simp] theorem State.setMem_mem (v : Memory) : (s.setMem v).mem = v := rfl
@[simp] theorem State.setMem_buf (v : Memory) : (s.setMem v).buf = s.buf := rfl
@[simp] theorem State.setMem_head (v : Memory) : (s.setMem v).head = s.head := rfl
@[simp] theorem State.setMem_req (v : Memory) : (s.setMem v).req = s.req := rfl
@[simp] theorem State.setMem_out (v : Memory) : (s.setMem v).out = s.out := rfl
@[simp] theorem State.setMem_phase (v : Memory) : (s.setMem v).phase = s.phase := rfl
@[simp] theorem State.setMem_lines (v : Memory) : (s.setMem v).lines = s.lines := rfl

@[simp] theorem State.setHead_pc (v : Nat) : (s.setHead v).pc = s.pc := rfl
@[simp] theorem State.setHead_ir (v : Nat) : (s.setHead v).ir = s.ir := rfl
@[simp] theorem State.setHead_acc (v : Nat) : (s.setHead v).acc = s.acc := rfl
@[simp] theorem State.setHead_cs (v : Nat) : (s.setHead v).cs = s.cs := rfl
@[simp] theorem State.setHead_run (v : Nat) : (s.setHead v).run = s.run := rfl
@[simp] theorem State.setHead_mem (v : Nat) : (s.setHead v).mem = s.mem := rfl
@[simp] theorem State.setHead_buf (v : Nat) : (s.setHead v).buf = s.buf := rfl
@[simp] theorem State.setHead_head (v : Nat) : (s.setHead v).head = v := rfl
@[simp] theorem State.setHead_req (v : Nat) : (s.setHead v).req = s.req := rfl
@[simp] theorem State.setHead_out (v : Nat) : (s.setHead v).out = s.out := rfl
@[simp] theorem State.setHead_phase (v : Nat) : (s.setHead v).phase = s.phase := rfl
@[simp] theorem State.setHead_lines (v : Nat) : (s.setHead v).lines = s.lines := rfl

@[simp] theorem State.setPhase_pc (v : Phase) : (s.setPhase v).pc = s.pc := rfl
@[simp] theorem State.setPhase_ir (v : Phase) : (s.setPhase v).ir = s.ir := rfl
@[simp] theorem State.setPhase_acc (v : Phase) : (s.setPhase v).acc = s.acc := rfl
@[simp] theorem State.setPhase_cs (v : Phase) : (s.setPhase v).cs = s.cs := rfl
@[simp] theorem State.setPhase_run (v : Phase) : (s.setPhase v).run = s.run := rfl
@[simp] theorem State.setPhase_mem (v : Phase) : (s.setPhase v).mem = s.mem := rfl
@[simp] theorem State.setPhase_buf (v : Phase) : (s.setPhase v).buf = s.buf := rfl
@[simp] theorem State.setPhase_head (v : Phase) : (s.setPhase v).head = s.head := rfl
@[simp] theorem State.setPhase_req (v : Phase) : (s.setPhase v).req = s.req := rfl
@[simp] theorem State.setPhase_out (v : Phase) : (s.setPhase v).out = s.out := rfl
@[simp] theorem State.setPhase_phase (v : Phase) : (s.setPhase v).phase = v := rfl
@[simp] theorem State.setPhase_lines (v : Phase) : (s.setPhase v).lines = s.lines := rfl

@[simp] theorem State.emit_pc (b : Byte) : (s.emit b).pc = s.pc := rfl
@[simp] theorem State.emit_ir (b : Byte) : (s.emit b).ir = s.ir := rfl
@[simp] theorem State.emit_acc (b : Byte) : (s.emit b).acc = s.acc := rfl
@[simp] theorem State.emit_cs (b : Byte) : (s.emit b).cs = s.cs := rfl
@[simp] theorem State.emit_run (b : Byte) : (s.emit b).run = s.run := rfl
@[simp] theorem State.emit_mem (b : Byte) : (s.emit b).mem = s.mem := rfl
@[simp] theorem State.emit_buf (b : Byte) : (s.emit b).buf = s.buf := rfl
@[simp] theorem State.emit_head (b : Byte) : (s.emit b).head = s.head := rfl
@[simp] theorem State.emit_req (b : Byte) : (s.emit b).req = s.req := rfl
@[simp] theorem State.emit_out (b : Byte) : (s.emit b).out = s.out ++ [b] := rfl
@[simp] theorem State.emit_phase (b : Byte) : (s.emit b).phase = s.phase := rfl
@[simp] theorem State.emit_lines (b : Byte) : (s.emit b).lines = s.lines := rfl

@[simp] theorem State.refillWith_pc (bytes : List Byte) : (s.refillWith bytes).pc = s.pc := rfl
@[simp] theorem State.refillWith_ir (bytes : List Byte) : (s.refillWith bytes).ir = s.ir := rfl
@[simp] theorem State.refillWith_acc (bytes : List Byte) : (s.refillWith bytes).acc = s.acc := rfl
@[simp] theorem State.refillWith_cs (bytes : List Byte) : (s.refillWith bytes).cs = s.cs := rfl
@[simp] theorem State.refillWith_run (bytes : List Byte) : (s.refillWith bytes).run = s.run := rfl
@[simp] theorem State.refillWith_mem (bytes : List Byte) : (s.refillWith bytes).mem = s.mem := rfl
@[simp] theorem State.refillWith_buf (bytes : List Byte) : (s.refillWith bytes).buf = bytes := rfl
@[simp] theorem State.refillWith_head (bytes : List Byte) : (s.refillWith bytes).head = 0 := rfl
@[simp] theorem State.refillWith_req (bytes : List Byte) : (s.refillWith bytes).req = s.req + 1 := rfl
@[simp] theorem State.refillWith_out (bytes : List Byte) : (s.refillWith bytes).out = s.out := rfl
@[simp] theorem State.refillWith_phase (bytes : List Byte) : (s.refillWith bytes).phase = s.phase := rfl
@[simp] theorem State.refillWith_lines (bytes : List Byte) : (s.refillWith bytes).lines = s.lines := rfl

@[simp] theorem State.supplyLine_pc (a : LineAnswer) : (s.supplyLine a).pc = s.pc := rfl
@[simp] theorem State.supplyLine_ir (a : LineAnswer) : (s.supplyLine a).ir = s.ir := rfl
@[simp] theorem State.supplyLine_acc (a : LineAnswer) : (s.supplyLine a).acc = s.acc := rfl
@[simp] theorem State.supplyLine_cs (a : LineAnswer) : (s.supplyLine a).cs = s.cs := rfl
@[simp] theorem State.supplyLine_run (a : LineAnswer) : (s.supplyLine a).run = s.run := rfl
@[simp] theorem State.supplyLine_mem (a : LineAnswer) : (s.supplyLine a).mem = s.mem := rfl
@[simp] theorem State.supplyLine_buf (a : LineAnswer) : (s.supplyLine a).buf = s.buf := rfl
@[simp] theorem State.supplyLine_head (a : LineAnswer) : (s.supplyLine a).head = s.head := rfl
@[simp] theorem State.supplyLine_req (a : LineAnswer) : (s.supplyLine a).req = s.req := rfl
@[simp] theorem State.supplyLine_out (a : LineAnswer) : (s.supplyLine a).out = s.out := rfl
@[simp] theorem State.supplyLine_phase (a : LineAnswer) : (s.supplyLine a).phase = s.phase := rfl
@[simp] theorem State.supplyLine_lines (a : LineAnswer) : (s.supplyLine a).lines = LineSource.supply s.lines a := rfl

@[simp] theorem afterFetch_pc (w : Word) : (afterFetch s w).pc = s.pc + 1 := rfl
@[simp] theorem afterFetch_ir (w : Word) : (afterFetch s w).ir = w := rfl
@[simp] theorem afterFetch_acc (w : Word) : (afterFetch s w).acc = s.acc := rfl
@[simp] theorem afterFetch_cs (w : Word) : (afterFetch s w).cs = s.cs := rfl
@[simp] theorem afterFetch_run (w : Word) : (afterFetch s w).run = s.run := rfl
@[simp] theorem afterFetch_mem (w : Word) : (afterFetch s w).mem = s.mem := rfl
@[simp] theorem afterFetch_buf (w : Word) : (afterFetch s w).buf = s.buf := rfl
@[simp] theorem afterFetch_head (w : Word) : (afterFetch s w).head = s.head := rfl
@[simp] theorem afterFetch_req (w : Word) : (afterFetch s w).req = s.req := rfl
@[simp] theorem afterFetch_out (w : Word) : (afterFetch s w).out = s.out := rfl
@[simp] theorem afterFetch_phase (w : Word) : (afterFetch s w).phase = s.phase := rfl
@[simp] theorem afterFetch_lines (w : Word) : (afterFetch s w).lines = s.lines := rfl

end Sys2Proof.Machine
end

