-- ==== Sys2Proof/Laws/Ops.lean ====
section
/-! SUPPORT. What each shared operation can do, said once: an inversion lemma per operation. -/

namespace Sys2Proof.Machine

/-! ## Refusals and faults -/

@[simp] theorem raise_eq (k : Fatal) (s : State) : raise k s = .next (s.setRun (.faulted k)) := rfl

/-! ## The memory primitives -/

theorem memFetch_cases (s : State) (a : Nat) :
    (∃ w, s.mem.read a = some w ∧ memFetch s a = .ok w) ∨
    (s.mem.read a = none ∧ memFetch s a = .error (.memRange .fetch a)) := by
  unfold memFetch; cases h : s.mem.read a <;> simp

theorem memRead_cases (s : State) (a : Nat) :
    (∃ w, s.mem.read a = some w ∧ memRead s a = .ok w) ∨
    (s.mem.read a = none ∧ memRead s a = .error (.memRange .read a)) := by
  unfold memRead; cases h : s.mem.read a <;> simp

theorem memWrite_cases (s : State) (a : Nat) (v : Word) :
    (a < s.mem.len ∧ memWrite s a v = .ok (s.setMem (s.mem.put a v))) ∨
    (s.mem.len ≤ a ∧ memWrite s a v = .error (.memRange .write a)) := by
  unfold memWrite Memory.write
  by_cases h : a < s.mem.len
  · simp [h]
  · simp [h]; omega

theorem fetch_cases (s : State) :
    (∃ w, s.mem.read s.pc = some w ∧ fetch s = .ok (w, afterFetch s w)) ∨
    (s.mem.read s.pc = none ∧ fetch s = .error (.memRange .fetch s.pc)) := by
  unfold fetch
  obtain ⟨w, hr, hf⟩ | ⟨hr, hf⟩ := memFetch_cases s s.pc
  · exact .inl ⟨w, hr, by rw [hf]⟩
  · exact .inr ⟨hr, by rw [hf]⟩

/-! ## The operand forms -/

/-- An accumulator operation with a memory operand either reads it and writes `acc`, or raises. -/
theorem accWithMem_cases (f : Word → Word → Word) (a : Addr) (s : State) :
    (∃ m, s.mem.read a.toNat = some m ∧ accWithMem f a s = .next (s.setAcc (f s.acc m))) ∨
    (s.mem.read a.toNat = none ∧ accWithMem f a s = .next (s.setRun (.faulted (.memRange .read a.toNat)))) := by
  unfold accWithMem effectiveAddr
  obtain ⟨w, hr, hf⟩ | ⟨hr, hf⟩ := memRead_cases s a.toNat
  · exact .inl ⟨w, hr, by rw [hf]⟩
  · exact .inr ⟨hr, by rw [hf]; rfl⟩

/-- A store either replaces the one word, or raises. -/
theorem storeMem_cases (a : Addr) (v : Word) (s : State) :
    (a.toNat < s.mem.len ∧ storeMem a v s = .next (s.setMem (s.mem.put a.toNat v))) ∨
    (s.mem.len ≤ a.toNat ∧ storeMem a v s = .next (s.setRun (.faulted (.memRange .write a.toNat)))) := by
  unfold storeMem effectiveAddr
  obtain ⟨hr, hf⟩ | ⟨hr, hf⟩ := memWrite_cases s a.toNat v
  · exact .inl ⟨hr, by rw [hf]⟩
  · exact .inr ⟨hr, by rw [hf]; rfl⟩

/-- JMA jumps exactly when bit 15 of `acc` is 1, and else changes nothing. -/
theorem execJma_cases (a : Addr) (s : State) :
    (s.acc.getLsbD 15 = true ∧ execJma a s = .next (s.setPc a.toNat)) ∨
    (s.acc.getLsbD 15 = false ∧ execJma a s = .next s) := by
  unfold execJma accBit15
  cases s.acc.getLsbD 15
  · exact .inr ⟨rfl, rfl⟩
  · exact .inl ⟨rfl, rfl⟩

/-! ## The tape -/

/-- The three things a refill comes to, and when. -/
theorem refill_cases (s : State) :
    (s.head ≠ s.buf.length ∧ refill s = .ready s) ∨
    (s.head = s.buf.length ∧ lineAnswer s.lines s.req = none ∧ refill s = .waiting) ∨
    (s.head = s.buf.length ∧ lineAnswer s.lines s.req = some .failure ∧ refill s = .failed (.inputFailure s.req)) ∨
    (∃ bytes, s.head = s.buf.length ∧ lineAnswer s.lines s.req = some (.line bytes) ∧
      refill s = .ready (s.refillWith bytes)) := by
  unfold refill
  by_cases hh : s.head = s.buf.length
  · rcases ha : lineAnswer s.lines s.req with _ | (bytes | _) <;> simp [hh]
  · simp [hh]

/-- A delivery gives 0x0000 or the byte at the cursor. -/
theorem deliver_cases (s : State) :
    (s.buf[s.head]? = none ∧ deliver s = s.setAcc 0x0000#16) ∨
    (∃ b, s.buf[s.head]? = some b ∧ deliver s = (s.setAcc (zextByte b)).setHead (s.head + 1)) := by
  unfold deliver
  cases h : s.buf[s.head]? <;> simp

/-- Everything IN can do. -/
theorem execInp_cases (a : Addr) (s : State) :
    (s.head = s.buf.length ∧ lineAnswer s.lines s.req = none ∧ execInp a s = .next (s.setPhase .awaitingLine)) ∨
    (s.head = s.buf.length ∧ lineAnswer s.lines s.req = some .failure ∧
      execInp a s = .next ((s.setPhase .ready).setRun (.faulted (.inputFailure s.req)))) ∨
    (∃ bytes, s.head = s.buf.length ∧ lineAnswer s.lines s.req = some (.line bytes) ∧
      execInp a s = .next ((deliver (s.refillWith bytes)).setPhase .ready)) ∨
    (s.head ≠ s.buf.length ∧ execInp a s = .next ((deliver s).setPhase .ready)) := by
  unfold execInp
  obtain ⟨hh, hr⟩ | ⟨hh, ha, hr⟩ | ⟨hh, ha, hr⟩ | ⟨bytes, hh, ha, hr⟩ := refill_cases s
  · exact .inr (.inr (.inr ⟨hh, by rw [hr]⟩))
  · exact .inl ⟨hh, ha, by rw [hr]⟩
  · exact .inr (.inl ⟨hh, ha, by rw [hr]; rfl⟩)
  · exact .inr (.inr (.inl ⟨bytes, hh, ha, by rw [hr]⟩))

end Sys2Proof.Machine
end

