-- ==== Sys2Proof/Laws/PerInstr.lean ====
section
/-! SUPPORT. One lemma per constructor of Instr: the two fields of the encoded word are the operation number and the
address (spec/30_encoding.md R80, R81). -/

namespace Sys2Proof

theorem opField_append (n : BitVec 4) (a : Addr) : opField (n ++ a) = n := by
  apply BitVec.eq_of_toNat_eq
  simp only [opField, BitVec.extractLsb'_toNat, BitVec.toNat_append]
  have := a.isLt; have := n.isLt
  rw [Nat.shiftLeft_eq, ← Nat.shiftLeft_eq, ← Nat.shiftLeft_add_eq_or_of_lt a.isLt, Nat.shiftLeft_eq, Nat.shiftRight_eq_div_pow]
  omega

theorem addrField_append (n : BitVec 4) (a : Addr) : addrField (n ++ a) = a := by
  apply BitVec.eq_of_toNat_eq
  simp only [addrField, BitVec.extractLsb'_toNat, BitVec.toNat_append]
  have := a.isLt; have := n.isLt
  rw [← Nat.shiftLeft_add_eq_or_of_lt a.isLt, Nat.shiftLeft_eq, Nat.shiftRight_eq_div_pow]
  omega

/-- The fields of the encoded word. -/
def Laws.EncodedFields.Statement (i : Instr) : Prop :=
  opField (encode i) = opNumber i ∧ addrField (encode i) = addrOf i

theorem Laws.EncodedFields.hlt : Laws.EncodedFields.Statement .hlt :=
  ⟨opField_append _ _, addrField_append _ _⟩

theorem Laws.EncodedFields.hltNz (a : Addr) : Laws.EncodedFields.Statement (.hltNz a) :=
  ⟨opField_append _ _, addrField_append _ _⟩

theorem Laws.EncodedFields.add (a : Addr) : Laws.EncodedFields.Statement (.add a) :=
  ⟨opField_append _ _, addrField_append _ _⟩

theorem Laws.EncodedFields.xor (a : Addr) : Laws.EncodedFields.Statement (.xor a) :=
  ⟨opField_append _ _, addrField_append _ _⟩

theorem Laws.EncodedFields.and (a : Addr) : Laws.EncodedFields.Statement (.and a) :=
  ⟨opField_append _ _, addrField_append _ _⟩

theorem Laws.EncodedFields.or (a : Addr) : Laws.EncodedFields.Statement (.or a) :=
  ⟨opField_append _ _, addrField_append _ _⟩

theorem Laws.EncodedFields.not (a : Addr) : Laws.EncodedFields.Statement (.not a) :=
  ⟨opField_append _ _, addrField_append _ _⟩

theorem Laws.EncodedFields.lda (a : Addr) : Laws.EncodedFields.Statement (.lda a) :=
  ⟨opField_append _ _, addrField_append _ _⟩

theorem Laws.EncodedFields.sta (a : Addr) : Laws.EncodedFields.Statement (.sta a) :=
  ⟨opField_append _ _, addrField_append _ _⟩

theorem Laws.EncodedFields.srj (a : Addr) : Laws.EncodedFields.Statement (.srj a) :=
  ⟨opField_append _ _, addrField_append _ _⟩

theorem Laws.EncodedFields.jma (a : Addr) : Laws.EncodedFields.Statement (.jma a) :=
  ⟨opField_append _ _, addrField_append _ _⟩

theorem Laws.EncodedFields.jmp (a : Addr) : Laws.EncodedFields.Statement (.jmp a) :=
  ⟨opField_append _ _, addrField_append _ _⟩

theorem Laws.EncodedFields.inp (a : Addr) : Laws.EncodedFields.Statement (.inp a) :=
  ⟨opField_append _ _, addrField_append _ _⟩

theorem Laws.EncodedFields.out (a : Addr) : Laws.EncodedFields.Statement (.out a) :=
  ⟨opField_append _ _, addrField_append _ _⟩

theorem Laws.EncodedFields.ral (a : Addr) : Laws.EncodedFields.Statement (.ral a) :=
  ⟨opField_append _ _, addrField_append _ _⟩

theorem Laws.EncodedFields.csa (a : Addr) : Laws.EncodedFields.Statement (.csa a) :=
  ⟨opField_append _ _, addrField_append _ _⟩

theorem Laws.EncodedFields.nop (a : Addr) : Laws.EncodedFields.Statement (.nop a) :=
  ⟨opField_append _ _, addrField_append _ _⟩

end Sys2Proof
end

