-- ==== Sys2Proof/Laws/Step.lean ====
section
/-! SUPPORT. What a step can do, said once: it answers a next state in exactly one of three ways. -/

namespace Sys2Proof.Machine

/-- The three ways a step answers a next state: an executed instruction, a fetch that raises, a waiting IN that goes on. -/
theorem step_next_cases {s t : State} (h : step s = .next t) :
    s.run = .running ∧
    ((∃ w, s.phase = .ready ∧ s.mem.read s.pc = some w ∧ exec (decode w) (afterFetch s w) = .next t) ∨
     (s.phase = .ready ∧ s.mem.read s.pc = none ∧ t = s.setRun (.faulted (.memRange .fetch s.pc))) ∨
     (s.phase = .awaitingLine ∧ execInp (addrField s.ir) s = .next t)) := by
  unfold step at h
  split at h
  · cases h
  · cases h
  · refine ⟨‹_›, ?_⟩
    split at h
    · exact .inr (.inr ⟨‹_›, h⟩)
    · obtain ⟨w, hr, hf⟩ | ⟨hr, hf⟩ := fetch_cases s
      · rw [hf] at h
        exact .inl ⟨w, ‹_›, hr, h⟩
      · rw [hf] at h
        exact .inr (.inl ⟨‹_›, hr, (Host.Outcome.next.inj h).symm⟩)

/-- The word `withFetchWord` places is the one the next step executes, in any state with canonical memory. -/
theorem step_withFetchWord {s : State} (h : s.mem.wf) (nbits w : Nat) :
    step (s.withFetchWord nbits w) =
      exec (decode (BitVec.ofNat 16 (w % 2 ^ nbits)))
        (afterFetch (s.withFetchWord nbits w) (BitVec.ofNat 16 (w % 2 ^ nbits))) := by
  have hr : (s.withFetchWord nbits w).mem.read (s.withFetchWord nbits w).pc = some (BitVec.ofNat 16 (w % 2 ^ nbits)) :=
    Memory.read_place h s.pc _
  have hrun : (s.withFetchWord nbits w).run = .running := rfl
  have hph : (s.withFetchWord nbits w).phase = .ready := rfl
  unfold step
  rw [hrun, hph]
  obtain ⟨v, hv, hf⟩ | ⟨hn, -⟩ := fetch_cases (s.withFetchWord nbits w)
  · rw [hr] at hv
    obtain rfl := Option.some.inj hv
    rw [hf]
  · rw [hr] at hn
    cases hn

end Sys2Proof.Machine
end

