-- ==== Sys2Proof/Tests/Slice0.lean ====
section
/-! SUPPORT. Tests. Expected results are taken from spec/95_test_vectors.md (V and S numbers) and from the encodings of
spec/30_encoding.md R83, R89; the witnesses show that the hypotheses of the statements can be met, each clause at a
boundary value. -/

namespace Sys2Proof.Tests

open Sys2Proof.Machine

/-- The state of a core that fetches at `pc`, with `len` words of memory of which `cells` are the nonzero ones. -/
def at_ (len pc : Nat) (cells : List (Nat × Word)) (acc : Word) : State :=
  { State.reset with pc := pc, acc := acc, mem := { len := len, cells := cells } }

/-- The same core with a tape: buffer, cursor, requests made, and the line source. -/
def withTape (s : State) (buf : List Byte) (head req : Nat) (answers : List LineAnswer) (rest : Option LineAnswer) : State :=
  { s with buf := buf, head := head, req := req, lines := { answers := answers, rest := rest } }

/-- What `f` gives on the next state of a step, where there is one. -/
def afterStep {α : Type} (s : State) (f : State → α) : Option α :=
  match step s with
  | .next t => some (f t)
  | .fault _ => none
  | .refused _ => none

/-! ## Well-formedness -/

/-- R85: HLT.NZ with address 0 is refused, with address 1 it is not. -/
theorem test_wf_hltNz : Instr.wf (.hltNz 0x000#12) = false ∧ Instr.wf (.hltNz 0x001#12) = true := by decide

/-- R26: MEM_LEN = 4097 is refused, MEM_LEN = 4096 is not. -/
theorem test_wf_params :
    Config.Params.wf { Config.defaults with image := List.replicate 4097 0#16 } = false ∧
    Config.Params.wf Config.defaults = true := by
  simp only [Config.Params.wf, Config.defaults, List.length_replicate]
  decide

/-- Memory that lists a zero word, an address twice or out of order, or an address outside MEM_LEN is not canonical. -/
theorem test_wf_memory :
    ¬ Memory.wf { len := 4, cells := [(1, 0#16)] } ∧ ¬ Memory.wf { len := 4, cells := [(1, 5#16), (1, 6#16)] } ∧
    ¬ Memory.wf { len := 4, cells := [(2, 5#16), (1, 6#16)] } ∧ ¬ Memory.wf { len := 4, cells := [(4, 5#16)] } ∧
    Memory.wf { len := 4, cells := [(0, 5#16), (3, 6#16)] } := by decide

/-! ## Decoding: each row's word, bit by bit -/

/-- R85: operation 0. -/
theorem test_decode_cycle :
    decode 0b0000000000000000#16 = .hlt ∧ decode 0b0000000000000001#16 = .hltNz 0x001#12 ∧
    decode 0b0000100000000000#16 = .hltNz 0x800#12 ∧ decode 0b1111111111111111#16 = .nop 0xFFF#12 := by decide

/-- R83: the ALU family. -/
theorem test_decode_alu :
    decode 0b0001000000001011#16 = .add 0x00B#12 ∧ decode 0b0010100000000001#16 = .xor 0x801#12 ∧
    decode 0b0011000000010101#16 = .and 0x015#12 ∧ decode 0b0100000000010110#16 = .or 0x016#12 ∧
    decode 0b0101101010111100#16 = .not 0xABC#12 ∧ decode 0b1101000000000000#16 = .ral 0x000#12 := by decide

/-- R83: data movement. -/
theorem test_decode_data :
    decode 0b0110000000001100#16 = .lda 0x00C#12 ∧ decode 0b0111111111110010#16 = .sta 0xFF2#12 ∧
    decode 0b1110000000000000#16 = .csa 0x000#12 := by decide

/-- R83: control transfer. -/
theorem test_decode_control :
    decode 0b1000000100000000#16 = .srj 0x100#12 ∧ decode 0b1001000000010000#16 = .jma 0x010#12 ∧
    decode 0b1010000000000000#16 = .jmp 0x000#12 := by decide

/-- R83: input and output. -/
theorem test_decode_io :
    decode 0b1011000000000000#16 = .inp 0x000#12 ∧ decode 0b1100000000000000#16 = .out 0x000#12 := by decide

/-- R89: the words of the source's bootloader. -/
theorem test_encode_bootloader :
    encode (.lda 0x00C#12) = 0x600C#16 ∧ encode (.add 0x00B#12) = 0x100B#16 ∧ encode (.jma 0x00A#12) = 0x900A#16 ∧
    encode (.sta 0x007#12) = 0x7007#16 ∧ encode (.out 0#12) = 0xC000#16 ∧ encode (.jmp 0#12) = 0xA000#16 ∧
    encode .hlt = 0x0000#16 := by decide

theorem test_decodeTableWord : decodeTableWord 16 0x700C = some (.sta 0x00C#12) := by decide

theorem test_withFetchWord :
    afterStep (State.reset.withFetchWord 16 0x8100) (fun t => (t.ir, t.acc, t.pc)) = some (0x8100#16, 0x0001#16, 0x100) := by
  decide

/-! ## The step, HLT, HLT.NZ, NOP -/

/-- V1. -/
theorem test_hlt :
    afterStep (at_ 16 0x00A [] 0x1234#16) (fun t => (t.ir, t.pc, t.acc, t.run)) =
      some (0x0000#16, 0x00B, 0x1234#16, .halted) := by decide

/-- V4: no fault for the address; the next step's fetch faults. -/
theorem test_hltNz :
    afterStep (at_ 1 0 [(0, 0x0FFF#16)] 0x4444#16) (fun t => (t.pc, t.run, afterStep t (fun u => u.run))) =
      some (1, .running, some (.faulted (.memRange .fetch 1))) := by decide

/-- V6. -/
theorem test_nop :
    afterStep (at_ 8 7 [(7, 0xFFFF#16)] 0#16) (fun t => (t.ir, t.pc, t.run)) = some (0xFFFF#16, 8, .running) := by decide

/-- V7: a fetch out of range leaves `ir`, `pc`, `acc`. -/
theorem test_fetch_fault :
    afterStep { at_ 3 3 [] 0x0041#16 with ir := 0xA003#16 } (fun t => (t.ir, t.pc, t.acc, t.run)) =
      some (0xA003#16, 3, 0x0041#16, .faulted (.memRange .fetch 3)) := by decide

/-- V9: `pc` does not wrap from 4095 to 0. -/
theorem test_pc_no_wrap :
    afterStep (at_ 4096 0xFFF [(0xFFF, 0xF000#16)] 0#16) (fun t => (t.pc, afterStep t (fun u => u.run))) =
      some (0x1000, some (.faulted (.memRange .fetch 0x1000))) := by decide

/-- V10. -/
theorem test_halted_takes_no_step : step { State.reset with run := .halted } = .fault .halted := rfl

/-! ## Arithmetic and logic -/

/-- V12. -/
theorem test_add_wraps : afterStep (at_ 4 0 [(0, 0x1002#16), (2, 0x0001#16)] 0xFFFF#16) (fun t => t.acc) = some 0x0000#16 := by
  decide

/-- V50: out of range. -/
theorem test_add_fault :
    afterStep (at_ 16 0 [(0, 0x1FFF#16)] 0x1111#16) (fun t => (t.acc, t.pc, t.ir, t.run)) =
      some (0x1111#16, 1, 0x1FFF#16, .faulted (.memRange .read 0xFFF)) := by decide

/-- V24. -/
theorem test_xor : afterStep (at_ 4 0 [(0, 0x2002#16), (2, 0x0F0F#16)] 0x00FF#16) (fun t => t.acc) = some 0x0FF0#16 := by decide

/-- V30. -/
theorem test_and : afterStep (at_ 4 0 [(0, 0x3002#16), (2, 0x0F0F#16)] 0x00FF#16) (fun t => t.acc) = some 0x000F#16 := by decide

/-- V36. -/
theorem test_or : afterStep (at_ 4 0 [(0, 0x4002#16), (2, 0x0F0F#16)] 0x00FF#16) (fun t => t.acc) = some 0x0FFF#16 := by decide

/-- V51: no fault for the address. -/
theorem test_not : afterStep (at_ 2 0 [(0, 0x5FFF#16)] 0x1111#16) (fun t => (t.acc, t.run)) = some (0xEEEE#16, .running) := by
  decide

/-- V42 (S4). -/
theorem test_ral_bit15 : afterStep (at_ 2 0 [(0, 0xD000#16)] 0x8001#16) (fun t => t.acc) = some 0x0003#16 := by decide

/-- V47. -/
theorem test_ral : afterStep (at_ 2 0 [(0, 0xD000#16)] 0x1234#16) (fun t => t.acc) = some 0x2468#16 := by decide

/-! ## Data movement -/

/-- V54: LDA of itself. -/
theorem test_lda_itself : afterStep (at_ 8 5 [(5, 0x6005#16)] 0#16) (fun t => t.acc) = some 0x6005#16 := by decide

/-- V55. -/
theorem test_lda_fault :
    afterStep (at_ 2 0 [(0, 0x6005#16)] 0x1111#16) (fun t => (t.acc, t.run)) =
      some (0x1111#16, .faulted (.memRange .read 5)) := by decide

/-- V57: the store is what the next step fetches, and storing 0x0000 unlists the word. -/
theorem test_sta_next_fetch :
    afterStep (at_ 4 1 [(1, 0x7002#16), (2, 0xF000#16)] 0#16) (fun t => (t.mem.cells, t.pc, afterStep t (fun u => u.run))) =
      some ([(1, 0x7002#16)], 2, some .halted) := by decide

/-- V59: the first address outside memory. -/
theorem test_sta_fault :
    afterStep (at_ 2 0 [(0, 0x7002#16)] 0x1111#16) (fun t => (t.mem, t.pc, t.run)) =
      some ({ len := 2, cells := [(0, 0x7002#16)] }, 1, .faulted (.memRange .write 2)) := by decide

/-- V61. -/
theorem test_csa :
    afterStep { at_ 2 0 [(0, 0xE000#16)] 0x1234#16 with cs := 0x00A5#16 } (fun t => (t.acc, t.cs)) =
      some (0x00A5#16, 0x00A5#16) := by decide

/-! ## Control transfer -/

/-- V63 (S8). -/
theorem test_srj : afterStep (at_ 512 4 [(4, 0x8100#16)] 0x7777#16) (fun t => (t.acc, t.pc)) = some (0x0005#16, 0x100) := by decide

/-- V65: the saved address is truncated to 12 bits. -/
theorem test_srj_truncates :
    afterStep (at_ 4096 0xFFF [(0xFFF, 0x8002#16)] 0x5555#16) (fun t => (t.acc, t.pc)) = some (0x0000#16, 2) := by decide

/-- V68 (S6). -/
theorem test_jma_taken : afterStep (at_ 64 0x20 [(0x20, 0x9010#16)] 0x8000#16) (fun t => (t.pc, t.acc)) = some (0x10, 0x8000#16) := by
  decide

/-- V69 (S7). -/
theorem test_jma_not_taken : afterStep (at_ 64 0x20 [(0x20, 0x9010#16)] 0x7FFF#16) (fun t => t.pc) = some 0x21 := by decide

/-- V76: the bad target faults at the next fetch, with `ir` the JMP. -/
theorem test_jmp_out_of_range :
    afterStep (at_ 2 1 [(1, 0xA003#16)] 0#16) (fun t => (t.pc, t.run, afterStep t (fun u => (u.ir, u.run)))) =
      some (3, .running, some (0xA003#16, .faulted (.memRange .fetch 3))) := by decide

/-! ## Input and output -/

/-- V79: a refill by the second answer. -/
theorem test_in_refills :
    afterStep (withTape (at_ 2 0 [(0, 0xB000#16)] 0#16) [0x48#8, 0x69#8] 2 1 [.failure, .line [0x21#8]] none)
      (fun t => (t.acc, t.buf, t.head, t.req)) = some (0x0021#16, [0x21#8], 1, 2) := by decide

/-- V86: the line source fails. -/
theorem test_in_failure :
    afterStep (withTape (at_ 4 2 [(2, 0xB000#16)] 0x0041#16) [0x41#8] 1 1 [.line [0x41#8], .failure] none)
      (fun t => ((t.acc, t.buf, t.head, t.req), t.pc, t.ir, t.run)) =
      some ((0x0041#16, [0x41#8], 1, 1), 3, 0xB000#16, .faulted (.inputFailure 1)) := by decide

/-- R176: an unanswered IN waits after its fetch, with `run` RUNNING and `acc` unchanged, and goes on once the line is
there. -/
theorem test_in_waits :
    afterStep (at_ 2 0 [(0, 0xB000#16)] 0x1234#16) (fun t => (t.run, t.phase, t.ir, t.pc, t.acc)) =
      some (.running, .awaitingLine, 0xB000#16, 1, 0x1234#16) ∧
    afterStep (at_ 2 0 [(0, 0xB000#16)] 0x1234#16)
      (fun t => afterStep (t.supplyLine (.line [0xFF#8])) (fun u => (u.phase, u.acc, u.pc))) =
      some (some (.ready, 0x00FF#16, 1)) := by decide

/-- V89: the high byte is ignored. -/
theorem test_out :
    afterStep { at_ 2 0 [(0, 0xC000#16)] 0x1241#16 with out := [0x48#8] } (fun t => (t.out, t.acc)) =
      some ([0x48#8, 0x41#8], 0x1241#16) := by decide

/-! ## Witnesses: the hypotheses of each statement are met together, each clause at a boundary -/

/-- Full memory whose last word is `w`, the core fetching it. -/
def atLast (w : Word) : State := at_ 4096 4095 [(4095, w)] 0x8000#16

/-- A core that waits for its line. -/
def waiting : State := { at_ 2 1 [(0, 0xB000#16)] 0#16 with phase := .awaitingLine, ir := 0xB000#16 }

theorem witness_DecodeFollowsTheOpcodeMap : (0x001#12 : Addr) ≠ 0#12 ∧ (0xFFF#12 : Addr) ≠ 0#12 := by decide

theorem witness_DecodeOfEncodeIsTheInstruction :
    Instr.wf (.hltNz 0x001#12) = true ∧ Instr.wf (.sta 0xFFF#12) = true ∧ Instr.wf .hlt = true := by decide

theorem witness_OnlyTheZeroWordHaltsAmongOperationZero :
    (0x0001#16 : Word) ≠ 0x0000#16 ∧ opField 0x0001#16 = 0#4 ∧ (0x0FFF#16 : Word) ≠ 0x0000#16 ∧ opField 0x0FFF#16 = 0#4 := by
  decide

theorem witness_StepRunsTheDecodedInstruction :
    (atLast 0xF000#16).Fetching ∧ (atLast 0xF000#16).mem.read (atLast 0xF000#16).pc = some 0xF000#16 := by decide

theorem witness_FetchOutsideMemoryEndsTheRun : (at_ 3 3 [] 0#16).Fetching ∧ (at_ 3 3 [] 0#16).mem.len ≤ (at_ 3 3 [] 0#16).pc := by
  decide

theorem witness_EndedRunTakesNoStep :
    ({ State.reset with run := .halted } : State).run ≠ .running ∧
    ({ State.reset with run := .faulted (.inputFailure 0) } : State).run ≠ .running := by decide

theorem witness_RunningCoreHasANextState : State.reset.run = .running := by decide

theorem witness_RunHaltsExactlyOnFetchingTheZeroWord :
    (at_ 1 0 [] 7#16).run = .running ∧
    ∃ t, step (at_ 1 0 [] 7#16) = .next t ∧ t.run = .halted := ⟨rfl, _, rfl, rfl⟩

theorem witness_ProgramCounterMoves_jump :
    (atLast 0x9FFF#16).Fetching ∧ (∃ t, step (atLast 0x9FFF#16) = .next t ∧ t.pc = 4095) ∧
    decode 0x9FFF#16 = .jma 0xFFF#12 ∧ 0x8000 ≤ (atLast 0x9FFF#16).acc.toNat := ⟨by decide, ⟨_, rfl, rfl⟩, by decide, by decide⟩

theorem witness_ProgramCounterMoves_not_taken :
    (at_ 2 0 [(0, 0x9FFF#16)] 0x7FFF#16).Fetching ∧
    (∃ t, step (at_ 2 0 [(0, 0x9FFF#16)] 0x7FFF#16) = .next t ∧ t.pc = 1) ∧ (0x7FFF#16 : Word).toNat < 0x8000 :=
  ⟨by decide, ⟨_, rfl, rfl⟩, by decide⟩

theorem witness_ProgramCounterMoves_fault :
    (at_ 0 0 [] 0#16).Fetching ∧ (∃ t, step (at_ 0 0 [] 0#16) = .next t ∧ t.pc = 0) ∧ (at_ 0 0 [] 0#16).mem.read 0 = none :=
  ⟨by decide, ⟨_, rfl, rfl⟩, by decide⟩

theorem witness_StoreIsSeenByTheVeryNextFetch :
    (at_ 2 0 [(0, 0x7001#16)] 0xC000#16).Fetching ∧ (at_ 2 0 [(0, 0x7001#16)] 0xC000#16).mem.wf ∧
    (at_ 2 0 [(0, 0x7001#16)] 0xC000#16).mem.read 0 = some (encode (.sta 0x001#12)) ∧ effectiveAddr 0x001#12 = 0 + 1 ∧
    effectiveAddr 0x001#12 < (at_ 2 0 [(0, 0x7001#16)] 0xC000#16).mem.len := by decide

theorem witness_RunningOffTheEndOfMemoryFaults :
    (atLast 0xF000#16).Fetching ∧ (atLast 0xF000#16).pc + 1 = (atLast 0xF000#16).mem.len ∧
    (atLast 0xF000#16).mem.read (atLast 0xF000#16).pc = some 0xF000#16 ∧ decode 0xF000#16 = .nop 0#12 := by decide

/-- A jump at the last address to MEM_LEN, the first address outside memory. -/
theorem witness_RunningOffTheEndOfMemoryFaults_jump :
    (at_ 2 1 [(1, 0xA002#16)] 0#16).Fetching ∧ (at_ 2 1 [(1, 0xA002#16)] 0#16).pc + 1 = 2 ∧
    (at_ 2 1 [(1, 0xA002#16)] 0#16).mem.read 1 = some 0xA002#16 ∧
    ∃ t, step (at_ 2 1 [(1, 0xA002#16)] 0#16) = .next t ∧ t.Fetching ∧ t.pc = 2 :=
  ⟨by decide, by decide, by decide, _, rfl, by decide, rfl⟩

/-- A load of the last word, and an IN that is answered, at the last address. -/
theorem witness_RunningOffTheEndOfMemoryFaults_data :
    accessesData (decode 0x6001#16) = true ∧ effectiveAddr (addrOf (decode 0x6001#16)) < (at_ 2 1 [(1, 0x6001#16)] 0#16).mem.len ∧
    (let s := withTape (at_ 2 1 [(1, 0xB000#16)] 0#16) [] 0 0 [.line []] none
     s.Fetching ∧ s.mem.read s.pc = some 0xB000#16 ∧ lineAnswer s.lines s.req = some (.line [])) := by decide

theorem witness_OldInstructionRegisterIsUnobservable :
    (atLast 0xF000#16).Fetching ∧ (atLast 0xF000#16).pc < (atLast 0xF000#16).mem.len := by decide

theorem witness_HltNzHasNoEffect : (0x001#12 : Addr) ≠ 0#12 := by decide

/-- For ADD, XOR, AND, OR, LDA: the last word of memory is read; the first address outside it raises. -/
theorem witness_data_reads :
    (at_ 3 1 [(2, 0x8000#16)] 0x8000#16).mem.read (effectiveAddr 0x002#12) = some 0x8000#16 ∧
    (at_ 3 1 [(2, 0x8000#16)] 0x8000#16).mem.len ≤ effectiveAddr 0x003#12 := by decide

theorem witness_ValueAndComplementAddToAllOnes :
    (at_ 3 1 [(2, 0x8000#16)] 0x8000#16).mem.read (effectiveAddr 0x002#12) = some (at_ 3 1 [(2, 0x8000#16)] 0x8000#16).acc := by
  decide

/-- For STA and for a load after it: the last word of memory is stored to; the first address outside it raises. -/
theorem witness_stores :
    (at_ 3 1 [(2, 0x8000#16)] 5#16).mem.wf ∧ effectiveAddr 0x002#12 < (at_ 3 1 [(2, 0x8000#16)] 5#16).mem.len ∧
    (at_ 3 1 [(2, 0x8000#16)] 5#16).mem.len ≤ effectiveAddr 0x003#12 := by decide

theorem witness_JmaJumpsExactlyOnBitFifteen :
    0x8000 ≤ (at_ 1 1 [] 0x8000#16).acc.toNat ∧ (at_ 1 1 [] 0x7FFF#16).acc.toNat < 0x8000 := by decide

theorem witness_AddingTheTemplateMakesTheReturnJump :
    (at_ 8 5 [(7, 0xA000#16)] 0#16).mem.read (effectiveAddr 0x007#12) = some 0xA000#16 := by decide

/-- SRJ, JMP and a taken JMA to the first address outside memory, and a JMA not taken with that target. -/
theorem witness_BadJumpTargetFaultsAtTheNextFetch :
    (let s := fun w acc => at_ 2 1 [(1, w)] acc
     (s 0x8002#16 0#16).Fetching ∧ (s 0x8002#16 0#16).mem.read 1 = some 0x8002#16 ∧ decode 0x8002#16 = .srj 0x002#12 ∧
     (s 0xA002#16 0#16).mem.read 1 = some 0xA002#16 ∧ decode 0xA002#16 = .jmp 0x002#12 ∧
     (s 0x9002#16 0x8000#16).mem.read 1 = some 0x9002#16 ∧ decode 0x9002#16 = .jma 0x002#12 ∧
     0x8000 ≤ (s 0x9002#16 0x8000#16).acc.toNat ∧ (s 0x9002#16 0x7FFF#16).acc.toNat < 0x8000 ∧
     (s 0x8002#16 0#16).mem.len ≤ (0x002#12 : Addr).toNat) := by decide

/-- A tape with one byte left (clause 1 of IN). -/
theorem witness_InRefillsThenDeliversOneByte_buffered :
    let s := withTape (at_ 1 1 [] 0#16) [0x48#8, 0xFF#8] 1 1 [] none
    s.head ≠ s.buf.length ∧ s.buf[s.head]? = some 0xFF#8 := by decide

/-- An exhausted tape and each answer (clauses 2, 3, 4 of IN). -/
theorem witness_InRefillsThenDeliversOneByte_refill :
    let s := fun r => withTape (at_ 1 1 [] 0#16) [0x48#8] 1 0 [r] none
    (s (.line [0xFF#8])).head = (s (.line [0xFF#8])).buf.length ∧
    lineAnswer (s (.line [0xFF#8])).lines 0 = some (.line [0xFF#8]) ∧
    lineAnswer (s (.line [])).lines 0 = some (.line []) ∧ lineAnswer (s .failure).lines 0 = some .failure := by decide

/-- An IN that is fetched, and an IN that waits, with the answer Failure. -/
theorem witness_LineSourceFailureFaultsTheIn :
    (let s := withTape (at_ 1 0 [(0, 0xBFFF#16)] 0#16) [] 0 0 [.failure] none
     s.head = s.buf.length ∧ lineAnswer s.lines s.req = some .failure ∧ s.Fetching ∧ s.mem.read s.pc = some 0xBFFF#16 ∧
     decode 0xBFFF#16 = .inp 0xFFF#12) ∧
    (let s := waiting.supplyLine .failure
     s.head = s.buf.length ∧ lineAnswer s.lines s.req = some .failure ∧ s.Waiting) := by decide

theorem witness_EndOfInputIsNotSticky :
    let s := withTape (at_ 1 1 [] 0#16) [] 0 0 [.line [], .line [0x78#8]] none
    s.head = s.buf.length ∧ lineAnswer s.lines s.req = some (.line []) ∧
    lineAnswer s.lines (s.req + 1) = some (.line [0x78#8]) := by decide

theorem witness_InWaitsUntilTheLineSourceAnswers :
    waiting.head = waiting.buf.length ∧ lineAnswer waiting.lines waiting.req = none ∧ waiting.Waiting ∧
    waiting.lines.answers.length = waiting.req := by decide

theorem witness_BufferedBytesAreDeliveredInOrder :
    let s := withTape (at_ 1 1 [] 0#16) [0x41#8, 0x42#8, 0x43#8] 0 1 [] none
    s.phase = .ready ∧ s.buf[s.head + 2]? = some 0x43#8 := by decide

theorem witness_FaultsComeOnly_read :
    State.reset.run = .running ∧ ∃ t, exec (.lda 0x003#12) (at_ 3 1 [] 0#16) = .next t ∧ t.run = .faulted (.memRange .read 3) :=
  ⟨rfl, _, rfl, rfl⟩

theorem witness_FaultsComeOnly_write :
    ∃ t, exec (.sta 0x003#12) (at_ 3 1 [] 0#16) = .next t ∧ t.run = .faulted (.memRange .write 3) := ⟨_, rfl, rfl⟩

theorem witness_FaultsComeOnly_input :
    ∃ t, exec (.inp 0#12) (withTape (at_ 3 1 [] 0#16) [] 0 0 [.failure] none) = .next t ∧ t.run = .faulted (.inputFailure 0) :=
  ⟨_, rfl, rfl⟩

theorem witness_OtherInstructionsDoNotAccessMemory :
    accessesData (.not 0xFFF#12) = false ∧ ∃ t, exec (.not 0xFFF#12) (at_ 1 1 [] 0#16) = .next t := ⟨rfl, _, rfl⟩

theorem witness_NoInstructionRaisesMemRangeInFullMemory :
    (atLast 0#16).mem.len = 4096 ∧ (atLast 0#16).run = .running ∧ ∃ t, exec (.lda 0xFFF#12) (atLast 0#16) = .next t :=
  ⟨rfl, rfl, _, rfl⟩

theorem inv_reset : State.reset.Inv where
  memWf := State.reset_mem_wf
  memLen := by decide
  headLe := by decide
  pcLe := by decide
  waiting := by decide

theorem inv_atLast : (atLast 0xF000#16).Inv where
  memWf := by decide
  memLen := by decide
  headLe := by decide
  pcLe := by decide
  waiting := by decide

theorem inv_waiting : waiting.Inv where
  memWf := by decide
  memLen := by decide
  headLe := by decide
  pcLe := by decide
  waiting := by decide

/-- At reset, at the last word of full memory (`pc` becomes 4096), and while an IN waits. -/
theorem witness_StepKeepsTheInvariant :
    (State.reset.Inv ∧ ∃ t, step State.reset = .next t) ∧
    ((atLast 0xF000#16).Inv ∧ ∃ t, step (atLast 0xF000#16) = .next t ∧ t.pc = 4096) ∧
    (waiting.Inv ∧ ∃ t, step waiting = .next t) :=
  ⟨⟨inv_reset, _, rfl⟩, ⟨inv_atLast, _, rfl, rfl⟩, ⟨inv_waiting, _, rfl⟩⟩

theorem witness_ResetMeetsTheInvariant : Config.Params.wf Config.defaults = true := test_wf_params.2

/-- A run of one step from a one-word image, and an answer supplied after it. -/
theorem witness_ReachableStatesKeepTheInvariantAndTheConstants :
    let p : Config.Params := { Config.defaults with image := [0xB000#16] }
    p.wf = true ∧ ∃ t : State, Reachable p (t.supplyLine .failure) ∧ t.phase = .awaitingLine :=
  ⟨by decide, _, .supply _ (.step .reset rfl), rfl⟩

/-- The premise of the statements about every step (constants, growth, tape, output, `acc` and `cs`): a step that has a
next state in which what they speak of changes. -/
theorem witness_steps :
    (∃ t, step (withTape (at_ 1 0 [(0, 0xB000#16)] 0#16) [] 0 0 [.line [0x41#8]] none) = .next t ∧ t.req = 1 ∧ t.buf ≠ []) ∧
    (∃ t, step (at_ 1 0 [(0, 0xC000#16)] 0x1241#16) = .next t ∧ t.out = [0x41#8]) ∧
    ∃ t, exec (.csa 0#12) { at_ 1 1 [] 7#16 with cs := 0xFFFF#16 } = .next t ∧ t.acc ≠ 7#16 :=
  ⟨⟨_, rfl, rfl, by decide⟩, ⟨_, rfl, rfl⟩, ⟨_, rfl, by decide⟩⟩

theorem witness_OnlyStaChangesMemory :
    (at_ 2 0 [(0, 0x7001#16)] 5#16).mem.wf ∧
    ∃ t, step (at_ 2 0 [(0, 0x7001#16)] 5#16) = .next t ∧ t.mem.read 1 ≠ (at_ 2 0 [(0, 0x7001#16)] 5#16).mem.read 1 :=
  ⟨by decide, _, rfl, by decide⟩

theorem witness_StatusRegisterIsReadOnlyByCsa :
    decode 0xF000#16 ≠ .csa 0x000#12 ∧ (at_ 1 0 [(0, 0xF000#16)] 0#16).mem.read 0 = some 0xF000#16 ∧
    ∃ t, step (at_ 1 0 [(0, 0xF000#16)] 0#16) = .next t := ⟨by decide, by decide, _, rfl⟩

end Sys2Proof.Tests
end

/-! # What executing an instruction can change

`Effect` lists the kinds of change an executed instruction makes (10_state.md R34), `exec_effect` ties it to `exec`, and
the lemmas after it read the columns of R34's table off it, one each. -/

namespace Sys2Proof.Machine

/-- The changes executing an instruction can make to the state after the fetch, one constructor for each kind. Which word
goes to `acc` is left to the laws of the single instructions. -/
inductive Effect (s : State) : Instr → State → Prop
  | nothing {i : Instr} (hi : ∃ a, i = .hltNz a ∨ i = .jma a ∨ i = .nop a) : Effect s i s
  | halt : Effect s .hlt (s.setRun .halted)
  | load {i : Instr} (v : Word) (hi : accessesData i = true) (hs : ∀ a, i ≠ .sta a) : Effect s i (s.setAcc v)
  | loadFault {i : Instr} (hi : accessesData i = true) (hs : ∀ a, i ≠ .sta a) (hl : s.mem.len ≤ (addrOf i).toNat) :
      Effect s i (s.setRun (.faulted (.memRange .read (addrOf i).toNat)))
  | store (a : Addr) (ha : a.toNat < s.mem.len) : Effect s (.sta a) (s.setMem (s.mem.put a.toNat s.acc))
  | storeFault (a : Addr) (hl : s.mem.len ≤ a.toNat) :
      Effect s (.sta a) (s.setRun (.faulted (.memRange .write a.toNat)))
  | accOnly {i : Instr} (v : Word) (hi : ∃ a, i = .not a ∨ i = .ral a ∨ i = .csa a) : Effect s i (s.setAcc v)
  | jump {i : Instr} (a : Addr) (hi : i = .jma a ∨ i = .jmp a) : Effect s i (s.setPc a.toNat)
  | saveAndJump (a : Addr) (v : Word) : Effect s (.srj a) ((s.setAcc v).setPc a.toNat)
  | emit (a : Addr) : Effect s (.out a) (s.emit (lowByte s.acc))
  | wait (a : Addr) (hh : s.head = s.buf.length) : Effect s (.inp a) (s.setPhase .awaitingLine)
  | inputFault (a : Addr) (hh : s.head = s.buf.length) (hf : lineAnswer s.lines s.req = some .failure) :
      Effect s (.inp a) ((s.setPhase .ready).setRun (.faulted (.inputFailure s.req)))
  | deliver (a : Addr) (v : Word) (n : Nat) (hn : s.head ≤ s.buf.length → n ≤ s.buf.length) :
      Effect s (.inp a) (((s.setAcc v).setHead n).setPhase .ready)
  | refill (a : Addr) (bytes : List Byte) (v : Word) (n : Nat) (hn : n ≤ bytes.length) :
      Effect s (.inp a) ((((s.refillWith bytes).setAcc v).setHead n).setPhase .ready)

/-- A delivery changes `acc` and the cursor alone, and takes the cursor no further than the end of the buffer. -/
theorem deliver_eq_setAcc_setHead (s : State) :
    ∃ v n, deliver s = (s.setAcc v).setHead n ∧ (s.head ≤ s.buf.length → n ≤ s.buf.length) := by
  obtain ⟨-, hd⟩ | ⟨b, hb, hd⟩ := deliver_cases s
  · exact ⟨0x0000#16, s.head, hd, id⟩
  · obtain ⟨hlt, -⟩ := List.getElem?_eq_some_iff.1 hb
    exact ⟨zextByte b, s.head + 1, hd, fun _ => hlt⟩

theorem accWithMem_effect (f : Word → Word → Word) (i : Instr) (s : State) (hi : accessesData i = true)
    (hs : ∀ a, i ≠ .sta a) : ∃ t, accWithMem f (addrOf i) s = .next t ∧ Effect s i t := by
  obtain ⟨m, -, he⟩ | ⟨hn, he⟩ := accWithMem_cases f (addrOf i) s
  · exact ⟨_, he, .load _ hi hs⟩
  · exact ⟨_, he, .loadFault hi hs (Memory.read_eq_none_iff.1 hn)⟩

theorem execInp_effect (a : Addr) (s : State) : ∃ t, execInp a s = .next t ∧ Effect s (.inp a) t := by
  obtain ⟨hh, -, he⟩ | ⟨hh, hf, he⟩ | ⟨bytes, -, -, he⟩ | ⟨-, he⟩ := execInp_cases a s
  · exact ⟨_, he, .wait a hh⟩
  · exact ⟨_, he, .inputFault a hh hf⟩
  · obtain ⟨v, n, hd, hn⟩ := deliver_eq_setAcc_setHead (s.refillWith bytes)
    rw [hd] at he
    exact ⟨_, he, .refill a bytes v n (hn (Nat.zero_le _))⟩
  · obtain ⟨v, n, hd, hn⟩ := deliver_eq_setAcc_setHead s
    rw [hd] at he
    exact ⟨_, he, .deliver a v n hn⟩

/-- Executing an instruction answers a next state, which `Effect` describes. -/
theorem exec_effect (i : Instr) (s : State) : ∃ t, exec i s = .next t ∧ Effect s i t := by
  cases i with
  | hlt => exact ⟨_, rfl, .halt⟩
  | hltNz a => exact ⟨_, rfl, .nothing ⟨a, .inl rfl⟩⟩
  | add a => exact accWithMem_effect aluAdd (.add a) s rfl nofun
  | xor a => exact accWithMem_effect _ (.xor a) s rfl nofun
  | and a => exact accWithMem_effect _ (.and a) s rfl nofun
  | or a => exact accWithMem_effect _ (.or a) s rfl nofun
  | not a => exact ⟨_, rfl, .accOnly _ ⟨a, .inl rfl⟩⟩
  | lda a => exact accWithMem_effect (fun _ m => m) (.lda a) s rfl nofun
  | sta a =>
    obtain ⟨ha, he⟩ | ⟨hl, he⟩ := storeMem_cases a s.acc s
    · exact ⟨_, he, .store a ha⟩
    · exact ⟨_, he, .storeFault a hl⟩
  | srj a => exact ⟨_, rfl, .saveAndJump a _⟩
  | jma a =>
    obtain ⟨-, he⟩ | ⟨-, he⟩ := execJma_cases a s
    · exact ⟨_, he, .jump a (.inl rfl)⟩
    · exact ⟨_, he, .nothing ⟨a, .inr (.inl rfl)⟩⟩
  | jmp a => exact ⟨_, rfl, .jump a (.inr rfl)⟩
  | inp a => exact execInp_effect a s
  | out a => exact ⟨_, rfl, .emit a⟩
  | ral a => exact ⟨_, rfl, .accOnly _ ⟨a, .inr (.inl rfl)⟩⟩
  | csa a => exact ⟨_, rfl, .accOnly _ ⟨a, .inr (.inr rfl)⟩⟩
  | nop a => exact ⟨_, rfl, .nothing ⟨a, .inr (.inr rfl)⟩⟩

theorem effect_of_exec {i : Instr} {s t : State} (h : exec i s = .next t) : Effect s i t := by
  obtain ⟨u, hu, he⟩ := exec_effect i s
  obtain rfl := Host.Outcome.next.inj (hu.symm.trans h)
  exact he

/-- `step_next_cases` with the executed instruction, fetched or waiting, described by `Effect`. -/
theorem step_effect {s t : State} (h : step s = .next t) :
    s.run = .running ∧
    ((∃ w, s.phase = .ready ∧ s.mem.read s.pc = some w ∧ Effect (afterFetch s w) (decode w) t) ∨
     (s.phase = .ready ∧ t = s.setRun (.faulted (.memRange .fetch s.pc))) ∨
     (s.phase = .awaitingLine ∧ Effect s (.inp (addrField s.ir)) t)) := by
  obtain ⟨hrun, ⟨w, hph, hr, he⟩ | ⟨hph, -, ht⟩ | ⟨hph, he⟩⟩ := step_next_cases h
  · exact ⟨hrun, .inl ⟨w, hph, hr, effect_of_exec he⟩⟩
  · exact ⟨hrun, .inr (.inl ⟨hph, ht⟩)⟩
  · exact ⟨hrun, .inr (.inr ⟨hph, effect_of_exec (i := .inp _) he⟩)⟩

/-! ## The columns of R34's table -/

namespace Effect

variable {s t : State} {i : Instr}

/-- No instruction writes `cs`, changes MEM_LEN, or changes the line source. -/
theorem constants (he : Effect s i t) : t.cs = s.cs ∧ t.mem.len = s.mem.len ∧ t.lines = s.lines := by
  cases he <;> exact ⟨rfl, rfl, rfl⟩

theorem mem_eq_or_put (he : Effect s i t) :
    t.mem = s.mem ∨ ∃ a, i = .sta a ∧ a.toNat < s.mem.len ∧ t.mem = s.mem.put a.toNat s.acc := by
  cases he with
  | store a ha => exact .inr ⟨a, rfl, ha, rfl⟩
  | _ => exact .inl rfl

theorem acc_eq_or_writer (he : Effect s i t) :
    t.acc = s.acc ∨ (accessesData i = true ∧ ∀ a, i ≠ .sta a) ∨
      ∃ a, i = .not a ∨ i = .srj a ∨ i = .inp a ∨ i = .ral a ∨ i = .csa a := by
  cases he with
  | load v hi hs => exact .inr (.inl ⟨hi, hs⟩)
  | accOnly v hi =>
    obtain ⟨a, hi⟩ := hi
    exact .inr (.inr ⟨a, by tauto⟩)
  | saveAndJump a | deliver a | refill a => exact .inr (.inr ⟨a, by simp⟩)
  | _ => exact .inl rfl

theorem tape_eq_or_inp (he : Effect s i t) :
    (t.buf = s.buf ∧ t.head = s.head ∧ t.req = s.req) ∨ ∃ a, i = .inp a := by
  cases he with
  | wait a | inputFault a | deliver a | refill a => exact .inr ⟨a, rfl⟩
  | _ => exact .inl ⟨rfl, rfl, rfl⟩

theorem req_eq_or_succ (he : Effect s i t) : t.req = s.req ∨ t.req = s.req + 1 := by
  cases he with
  | refill => exact .inr rfl
  | _ => exact .inl rfl

theorem out_eq_or_emit (he : Effect s i t) :
    t.out = s.out ∨ ∃ a, i = .out a ∧ t.out = s.out ++ [lowByte s.acc] := by
  cases he with
  | emit a => exact .inr ⟨a, rfl, rfl⟩
  | _ => exact .inl rfl

theorem pc_eq_or_lt (he : Effect s i t) : t.pc = s.pc ∨ t.pc < 4096 := by
  cases he with
  | jump a | saveAndJump a => exact .inr a.isLt
  | _ => exact .inl rfl

theorem head_le (he : Effect s i t) (h : s.head ≤ s.buf.length) : t.head ≤ t.buf.length := by
  cases he with
  | deliver a v n hn => exact hn h
  | refill a bytes v n hn => exact hn
  | _ => exact h

/-- A core waits after an instruction only when that is an IN with the tape exhausted, or when it waited already and the
instruction is no IN. -/
theorem awaiting (he : Effect s i t) (ht : t.phase = .awaitingLine) :
    (s.phase = .awaitingLine ∧ ∀ a, i ≠ .inp a) ∨
    ∃ a, i = .inp a ∧ s.head = s.buf.length ∧ t = s.setPhase .awaitingLine := by
  cases he with
  | wait a hh => exact .inr ⟨a, rfl, hh, rfl⟩
  | inputFault | deliver | refill => cases ht
  | nothing hi => exact .inl ⟨ht, by rintro b rfl; simp at hi⟩
  | load v hi | loadFault hi => exact .inl ⟨ht, by rintro b rfl; cases hi⟩
  | accOnly v hi => exact .inl ⟨ht, by rintro b rfl; simp at hi⟩
  | jump a hi => exact .inl ⟨ht, by rintro b rfl; simp at hi⟩
  | _ => exact .inl ⟨ht, nofun⟩

end Effect

end Sys2Proof.Machine

/-! # The invariant -/

namespace Sys2Proof

/-- The operation number of the instruction a word is, is its operation field (30_encoding.md R83). -/
theorem opNumber_decode (w : Word) : opNumber (decode w) = opField w := by
  have hlt := (opField w).isLt
  apply BitVec.eq_of_toNat_eq
  unfold decode
  split
  case h_1 h => rw [h]; split <;> rfl
  case h_16 => simp only [imp_false, opNumber, BitVec.reduceToNat] at *; omega
  all_goals simp only [opNumber, BitVec.reduceToNat]; omega

namespace Machine

variable {s t : State}

theorem afterFetch_inv {w : Word} (hi : s.Inv) (hph : s.phase = .ready) (hr : s.mem.read s.pc = some w) :
    (afterFetch s w).Inv where
  memWf := hi.memWf
  memLen := hi.memLen
  headLe := hi.headLe
  pcLe := by
    have := Memory.lt_of_read hr
    simp only [afterFetch_pc, afterFetch_mem]
    omega
  waiting := by simp [hph]

/-- Executing an instruction keeps the invariant: an IN in the state of a run that goes on, with its word in `ir`; any
other instruction in a core that does not wait. -/
theorem Effect.inv {i : Instr} (he : Effect s i t) (hi : s.Inv)
    (hinp : ∀ a, i = .inp a → s.run = .running ∧ opField s.ir = 11#4)
    (hother : (∀ a, i ≠ .inp a) → s.phase = .ready) : t.Inv := by
  obtain ⟨-, hlen, -⟩ := he.constants
  refine ⟨?_, hlen ▸ hi.memLen, he.head_le hi.headLe, ?_, fun ht => ?_⟩
  · obtain hm | ⟨a, -, ha, hm⟩ := he.mem_eq_or_put
    · exact hm ▸ hi.memWf
    · exact hm ▸ Memory.put_wf hi.memWf ha s.acc
  · have := hi.pcLe
    have := he.pc_eq_or_lt
    omega
  · obtain ⟨hph, hne⟩ | ⟨a, ha, hh, rfl⟩ := he.awaiting ht
    · cases (hother hne).symm.trans hph
    · obtain ⟨hrun, hir⟩ := hinp a ha
      exact ⟨hrun, hir, hh⟩

/-- Ending the run of a core that does not wait keeps the invariant. -/
theorem setRun_inv (hi : s.Inv) (hph : s.phase = .ready) (r : RunStatus) : (s.setRun r).Inv :=
  ⟨hi.memWf, hi.memLen, hi.headLe, hi.pcLe, by simp [hph]⟩

theorem step_inv (hi : s.Inv) (h : step s = .next t) : t.Inv := by
  obtain ⟨hrun, ⟨w, hph, hr, he⟩ | ⟨hph, rfl⟩ | ⟨hph, he⟩⟩ := step_effect h
  · refine he.inv (afterFetch_inv hi hph hr) (fun a ha => ⟨hrun, ?_⟩) fun _ => hph
    rw [afterFetch_ir, ← opNumber_decode, ha]
    rfl
  · exact setRun_inv hi hph _
  · obtain ⟨-, hir, -⟩ := hi.waiting hph
    exact he.inv hi (fun _ _ => ⟨hrun, hir⟩) fun hne => absurd rfl (hne _)

theorem supplyLine_inv (hi : s.Inv) (a : LineAnswer) : (s.supplyLine a).Inv :=
  ⟨hi.memWf, hi.memLen, hi.headLe, hi.pcLe, hi.waiting⟩

theorem resetWith_inv {p : Config.Params} (hp : p.wf = true) : (State.resetWith p).Inv where
  memWf := Memory.ofImage_wf p.image
  memLen := of_decide_eq_true hp
  headLe := Nat.zero_le _
  pcLe := Nat.zero_le _
  waiting := nofun

theorem defaults_wf : Config.defaults.wf = true := by
  simp only [Config.Params.wf, Config.defaults, List.length_replicate]
  decide

/-- The constants of a run, over one step (10_state.md R24, R26, log 6). -/
theorem step_constants (h : step s = .next t) : t.cs = s.cs ∧ t.mem.len = s.mem.len ∧ t.lines = s.lines := by
  obtain ⟨-, ⟨w, -, -, he⟩ | ⟨-, rfl⟩ | ⟨-, he⟩⟩ := step_effect h
  · exact he.constants
  · exact ⟨rfl, rfl, rfl⟩
  · exact he.constants

theorem Reachable.inv {p : Config.Params} (hp : p.wf = true) (hs : Reachable p s) : s.Inv := by
  induction hs with
  | reset => exact resetWith_inv hp
  | step _ h ih => exact step_inv ih h
  | supply a _ ih => exact supplyLine_inv ih a

theorem Reachable.constants {p : Config.Params} (hs : Reachable p s) :
    s.cs = p.csValue ∧ s.mem.len = p.image.length := by
  induction hs with
  | reset => exact ⟨rfl, rfl⟩
  | step _ h ih =>
    obtain ⟨hcs, hlen, -⟩ := step_constants h
    exact ⟨hcs.trans ih.1, hlen.trans ih.2⟩
  | supply _ _ ih => exact ih

/-- The words of memory that holds an image are the words of the image (10_state.md R27). -/
theorem Memory.read_ofImage (image : List Word) (a : Nat) : (Memory.ofImage image).read a = image[a]? := by
  by_cases ha : a < image.length
  · have := cellsGet_imageCells 0 image a ha
    rw [Nat.zero_add] at this
    simp [Memory.read, Memory.ofImage, ha, this]
  · simp [Memory.read, Memory.ofImage, ha]

/-- Settles O47: each instruction's effect keeps the invariant of the state after the fetch. -/
theorem stepKeepsTheInvariant : Obligations.StepKeepsTheInvariant :=
  fun _ _ => step_inv

/-- Settles O48: `State.reset` is the reset with the parameters `Config.defaults`. -/
theorem resetMeetsTheInvariant : Obligations.ResetMeetsTheInvariant := by
  refine ⟨fun p => resetWith_inv, ?_⟩
  rw [State.reset_eq_resetWith]
  exact resetWith_inv defaults_wf

/-- Settles O49, by induction on how the state is reached. -/
theorem reachableStatesKeepTheInvariantAndTheConstants : Obligations.ReachableStatesKeepTheInvariantAndTheConstants := by
  intro p s hp hs
  have hi := hs.inv hp
  obtain ⟨hcs, hlen⟩ := hs.constants
  refine ⟨hi, hcs, hlen, ?_⟩
  have hpc := hi.pcLe
  have hmax : s.mem.len ≤ 4096 := hi.memLen
  omega

/-- Settles O50: memory reads as the image does, and the registers are `State.resetWith` read off. -/
theorem resetLoadsTheImageAndStartsAtWordZero : Obligations.ResetLoadsTheImageAndStartsAtWordZero :=
  fun p => ⟨Memory.read_ofImage p.image, rfl, rfl, ⟨rfl, rfl⟩, rfl, rfl, rfl, rfl, rfl, rfl, rfl⟩

/-- Settles O51: no effect touches them, and a fetch that raises changes `run` alone. -/
theorem stepNeverChangesTheConstants : Obligations.StepNeverChangesTheConstants :=
  fun _ _ => step_constants

end Machine
end Sys2Proof

/-! # Which step changes which element -/

namespace Sys2Proof.Machine

/-- `acc[7:0]` as a number. -/
theorem lowByte_eq_ofNat (w : Word) : lowByte w = BitVec.ofNat 8 (w.toNat % 256) := by
  apply BitVec.eq_of_toNat_eq
  simp [lowByte]

/-- Settles O9, by the run status. -/
theorem endedRunTakesNoStep : Obligations.EndedRunTakesNoStep := by
  intro s hs
  refine ⟨fun t ht => hs (step_next_cases ht).1, fun h => ?_, fun k h => ?_⟩ <;>
  · unfold step
    rw [h]

/-- Settles O52, by the three ways of a step: OUT appends one byte, a refill counts one request. -/
theorem outputAndRequestsOnlyGrow : Obligations.OutputAndRequestsOnlyGrow := by
  intro s t h
  obtain ⟨-, ⟨w, -, -, he⟩ | ⟨-, rfl⟩ | ⟨-, he⟩⟩ := step_effect h
  · exact ⟨he.out_eq_or_emit.imp_right fun ⟨_, _, ho⟩ => ⟨_, ho⟩, he.req_eq_or_succ⟩
  · exact ⟨.inl rfl, .inl rfl⟩
  · exact ⟨he.out_eq_or_emit.imp_right fun ⟨_, _, ho⟩ => ⟨_, ho⟩, he.req_eq_or_succ⟩

/-- Settles O53: the effect on memory is none, or the one word of an STA in range. -/
theorem onlyStaChangesMemory : Obligations.OnlyStaChangesMemory := by
  intro s t b hwf h hne
  obtain ⟨hrun, ⟨w, hph, hr, he⟩ | ⟨-, rfl⟩ | ⟨-, he⟩⟩ := step_effect h
  · obtain hm | ⟨a, hw, ha, hm⟩ := he.mem_eq_or_put
    · exact absurd (by rw [hm, afterFetch_mem]) hne
    · have hread : t.mem.read b = if b = a.toNat ∧ a.toNat < s.mem.len then some s.acc else s.mem.read b :=
        hm ▸ Memory.read_put hwf a.toNat s.acc b
      by_cases hb : b = a.toNat
      · exact ⟨⟨hrun, hph⟩, w, a, hr, hw, hb.symm, hread.trans (if_pos ⟨hb, ha⟩)⟩
      · exact absurd (hread.trans (if_neg fun hc => hb hc.1)) hne
  · exact absurd rfl hne
  · obtain hm | ⟨a, ha, -⟩ := he.mem_eq_or_put
    · exact absurd (by rw [hm]) hne
    · cases ha

/-- Settles O54: the effects on the tape are those of IN, the effect on `out` is that of OUT. -/
theorem onlyInTouchesTheTapeAndOnlyOutEmits : Obligations.OnlyInTouchesTheTapeAndOnlyOutEmits := by
  intro s t h
  obtain ⟨-, ⟨w, hph, hr, he⟩ | ⟨-, rfl⟩ | ⟨hph, he⟩⟩ := step_effect h
  · refine ⟨fun htape => ?_, fun hout => ⟨hph, ?_⟩⟩
    · obtain ⟨hb, hh, hq⟩ | ⟨a, ha⟩ := he.tape_eq_or_inp
      · simp [hb, hh, hq] at htape
      · exact .inr ⟨w, a, hr, ha⟩
    · obtain ho | ⟨a, ha, ho⟩ := he.out_eq_or_emit
      · exact absurd ho hout
      · exact ⟨w, a, hr, ha, by rw [ho, lowByte_eq_ofNat, afterFetch_out, afterFetch_acc]⟩
  · simp
  · refine ⟨fun _ => .inl hph, fun hout => ?_⟩
    obtain ho | ⟨a, ha, -⟩ := he.out_eq_or_emit
    · exact absurd ho hout
    · cases ha

/-- Settles O55: the column `acc` of the effects. -/
theorem accumulatorIsWrittenOnlyByItsWriters : Obligations.AccumulatorIsWrittenOnlyByItsWriters :=
  fun _ _ _ h hne => (effect_of_exec h).acc_eq_or_writer.resolve_left hne

end Sys2Proof.Machine

/-! # What a step does not depend on -/

namespace Sys2Proof.Machine

/-- A step of a core that fetches a word executes it in the state after the fetch (40_cycle.md R100). -/
theorem step_of_read {s : State} {w : Word} (hs : s.Fetching) (hr : s.mem.read s.pc = some w) :
    step s = exec (decode w) (afterFetch s w) := by
  obtain ⟨hrun, hph⟩ := hs
  unfold step
  rw [hrun, hph]
  obtain ⟨v, hv, hf⟩ | ⟨hn, -⟩ := fetch_cases s
  · obtain rfl := Option.some.inj (hv.symm.trans hr)
    rw [hf]
  · cases hn.symm.trans hr

/-- Settles O15: the fetch replaces `ir`. -/
theorem oldInstructionRegisterIsUnobservable : Obligations.OldInstructionRegisterIsUnobservable := by
  intro s x hs hpc
  obtain ⟨w, hr⟩ := Memory.read_isSome_iff.2 hpc
  rw [step_of_read hs hr]
  exact step_of_read (s := { s with ir := x }) hs hr

/-- The state with the bytes `o` put before the output history and `c` in `cs`: the two elements only an OUT (which
appends) and a CSA deal with. -/
def State.withUnread (s : State) (o : List Byte) (c : Word) : State := { s with out := o ++ s.out, cs := c }

/-- An outcome with its next state, if it has one, replaced by its image. -/
def onNext (g : State → State) : Host.Outcome State Fault Refusal → Host.Outcome State Fault Refusal
  | .next t => .next (g t)
  | .fault r => .fault r
  | .refused r => .refused r

section
variable (s : State) (o : List Byte) (c : Word)

@[simp] theorem State.withUnread_pc : (s.withUnread o c).pc = s.pc := rfl
@[simp] theorem State.withUnread_ir : (s.withUnread o c).ir = s.ir := rfl
@[simp] theorem State.withUnread_acc : (s.withUnread o c).acc = s.acc := rfl
@[simp] theorem State.withUnread_run : (s.withUnread o c).run = s.run := rfl
@[simp] theorem State.withUnread_mem : (s.withUnread o c).mem = s.mem := rfl
@[simp] theorem State.withUnread_buf : (s.withUnread o c).buf = s.buf := rfl
@[simp] theorem State.withUnread_head : (s.withUnread o c).head = s.head := rfl
@[simp] theorem State.withUnread_req : (s.withUnread o c).req = s.req := rfl
@[simp] theorem State.withUnread_phase : (s.withUnread o c).phase = s.phase := rfl
@[simp] theorem State.withUnread_lines : (s.withUnread o c).lines = s.lines := rfl

theorem emit_withUnread (b : Byte) : (s.withUnread o c).emit b = (s.emit b).withUnread o c := by
  simp [State.withUnread, State.emit]

theorem accWithMem_withUnread (f : Word → Word → Word) (a : Addr) :
    accWithMem f a (s.withUnread o c) = onNext (·.withUnread o c) (accWithMem f a s) := by
  simp only [accWithMem, memRead, State.withUnread_mem]
  cases s.mem.read (effectiveAddr a) <;> rfl

theorem execSta_withUnread (a : Addr) :
    execSta a (s.withUnread o c) = onNext (·.withUnread o c) (execSta a s) := by
  simp only [execSta, storeMem, memWrite, State.withUnread_mem, State.withUnread_acc]
  cases s.mem.write (effectiveAddr a) s.acc <;> rfl

theorem execJma_withUnread (a : Addr) :
    execJma a (s.withUnread o c) = onNext (·.withUnread o c) (execJma a s) := by
  have hb : accBit15 (s.withUnread o c) = accBit15 s := rfl
  unfold execJma
  rw [hb]
  split <;> rfl

theorem deliver_withUnread : deliver (s.withUnread o c) = (deliver s).withUnread o c := by
  simp only [deliver, State.withUnread_buf, State.withUnread_head]
  cases s.buf[s.head]? <;> rfl

theorem deliver_refillWith_withUnread (bytes : List Byte) :
    deliver ((s.withUnread o c).refillWith bytes) = (deliver (s.refillWith bytes)).withUnread o c :=
  deliver_withUnread (s.refillWith bytes) o c

theorem execInp_withUnread (a : Addr) :
    execInp a (s.withUnread o c) = onNext (·.withUnread o c) (execInp a s) := by
  by_cases hh : s.head = s.buf.length
  · have hh' : (s.withUnread o c).head = (s.withUnread o c).buf.length := hh
    simp only [execInp, refill, if_pos hh, if_pos hh', State.withUnread_lines, State.withUnread_req]
    rcases lineAnswer s.lines s.req with _ | (bytes | _)
    · rfl
    · simp only [deliver_refillWith_withUnread]
      rfl
    · rfl
  · have hh' : ¬ (s.withUnread o c).head = (s.withUnread o c).buf.length := hh
    simp only [execInp, refill, if_neg hh, if_neg hh', deliver_withUnread]
    rfl

/-- An instruction goes the same way whatever was emitted before it, and, unless it is a CSA, whatever `cs` holds. -/
theorem exec_withUnread (i : Instr) (hc : c = s.cs ∨ ∀ a, i ≠ .csa a) :
    exec i (s.withUnread o c) = onNext (·.withUnread o c) (exec i s) := by
  cases i with
  | add a | xor a | and a | or a => exact accWithMem_withUnread s o c _ a
  | lda a => exact accWithMem_withUnread s o c (fun _ m => m) a
  | sta a => exact execSta_withUnread s o c a
  | jma a => exact execJma_withUnread s o c a
  | inp a => exact execInp_withUnread s o c a
  | out a => exact congrArg Host.Outcome.next (emit_withUnread s o c _)
  | csa a =>
    obtain rfl | hne := hc
    · rfl
    · exact absurd rfl (hne a)
  | _ => rfl

/-- The same for a step, which executes at most the word at `pc`. -/
theorem step_withUnread
    (hc : c = s.cs ∨ (s.phase = .ready → ∀ w a, s.mem.read s.pc = some w → decode w ≠ .csa a)) :
    step (s.withUnread o c) = onNext (·.withUnread o c) (step s) := by
  simp only [step, State.withUnread_run, State.withUnread_phase]
  cases s.run with
  | halted | faulted k => rfl
  | running =>
    cases hph : s.phase with
    | awaitingLine => exact execInp_withUnread s o c (addrField s.ir)
    | ready =>
      simp only [fetch, memFetch, State.withUnread_mem, State.withUnread_pc]
      cases hr : s.mem.read s.pc with
      | none => rfl
      | some w => exact exec_withUnread (afterFetch s w) o c _ (hc.imp_right fun h a => h hph w a hr)

end

/-- Settles O56: other bytes before `out`, with `cs` as it is. -/
theorem outputHistoryIsNeverRead : Obligations.OutputHistoryIsNeverRead := by
  intro s t o h
  obtain ⟨hcs, -, -⟩ := step_constants h
  calc step { s with out := o ++ s.out }
      = onNext (·.withUnread o s.cs) (step s) := step_withUnread s o s.cs (.inl rfl)
    _ = .next (t.withUnread o t.cs) := by rw [h, hcs]; rfl

/-- Settles O57: another `cs`, with no byte before `out`. -/
theorem statusRegisterIsReadOnlyByCsa : Obligations.StatusRegisterIsReadOnlyByCsa := by
  intro s t c hne h
  calc step { s with cs := c }
      = onNext (·.withUnread [] c) (step s) := step_withUnread s [] c (.inr hne)
    _ = .next { t with cs := c } := by rw [h]; rfl

end Sys2Proof.Machine

/-! # Memory: stores, loads, and the instructions that make no data access -/

namespace Sys2Proof.Machine

/-! ## Fetch, load and store -/

/-- A fetch outside memory raises and ends the step (40_cycle.md R101). -/
theorem step_of_len_le {s : State} (hs : s.Fetching) (hl : s.mem.len ≤ s.pc) :
    step s = .next (s.setRun (.faulted (.memRange .fetch s.pc))) := by
  obtain ⟨hrun, hph⟩ := hs
  unfold step
  rw [hrun, hph]
  obtain ⟨w, hr, -⟩ | ⟨-, hf⟩ := fetch_cases s
  · exact absurd (Memory.lt_of_read hr) (Nat.not_lt.2 hl)
  · rw [hf]
    rfl

theorem decode_encode_sta (a : Addr) : decode (encode (.sta a)) = .sta a := by
  obtain ⟨hop, haddr⟩ := Laws.EncodedFields.sta a
  simp [decode, hop, haddr, opNumber, addrOf]

theorem accWithMem_of_read (f : Word → Word → Word) {a : Addr} {s : State} {m : Word}
    (hr : s.mem.read (effectiveAddr a) = some m) : accWithMem f a s = .next (s.setAcc (f s.acc m)) := by
  simp [accWithMem, memRead, hr]

theorem accWithMem_of_read_none (f : Word → Word → Word) {a : Addr} {s : State}
    (hr : s.mem.read (effectiveAddr a) = none) :
    accWithMem f a s = .next (s.setRun (.faulted (.memRange .read (effectiveAddr a)))) := by
  simp [accWithMem, memRead, hr]

theorem exec_sta_of_lt {a : Addr} {s : State} (ha : effectiveAddr a < s.mem.len) :
    exec (.sta a) s = .next (s.setMem (s.mem.put (effectiveAddr a) s.acc)) := by
  obtain ⟨-, he⟩ | ⟨hl, -⟩ := storeMem_cases a s.acc s
  · exact he
  · exact absurd ha (Nat.not_lt.2 hl)

/-- The stored word is read back. -/
theorem Memory.read_put_same {m : Memory} (h : m.wf) {a : Nat} (ha : a < m.len) (v : Word) :
    (m.put a v).read a = some v := by
  rw [Memory.read_put h, if_pos ⟨rfl, ha⟩]

/-- Every other word is read as before the store. -/
theorem Memory.read_put_of_ne {m : Memory} (h : m.wf) {a b : Nat} (hb : b ≠ a) (v : Word) :
    (m.put a v).read b = m.read b := by
  rw [Memory.read_put h, if_neg fun hc => hb hc.1]

/-- Settles O8: `fetch` finds no word at `pc`. -/
theorem fetchOutsideMemoryEndsTheRun : Obligations.FetchOutsideMemoryEndsTheRun :=
  fun _ => step_of_len_le

/-- Settles O13: the next fetch reads the word just put at `pc`, which is the accumulator. -/
theorem storeIsSeenByTheVeryNextFetch : Obligations.StoreIsSeenByTheVeryNextFetch := by
  intro s a hs hwf hr hpc ha
  have hstore : step s = .next ((afterFetch s (encode (.sta a))).setMem (s.mem.put (effectiveAddr a) s.acc)) := by
    rw [step_of_read hs hr, decode_encode_sta]
    exact exec_sta_of_lt ha
  have hread : (s.mem.put (effectiveAddr a) s.acc).read (s.pc + 1) = some s.acc :=
    hpc ▸ Memory.read_put_same hwf ha s.acc
  exact ⟨_, hstore, hs, rfl, rfl, step_of_read hs hread⟩

/-- Settles O30: after the store of `acc`, the loaded address is the stored one, another word of memory, or outside. -/
theorem loadAfterStoreGivesTheStoredWord : Obligations.LoadAfterStoreGivesTheStoredWord := by
  intro a b s hwf ha
  refine ⟨_, exec_sta_of_lt ha, ?_⟩
  by_cases hb : b = a
  · subst hb
    rw [if_pos rfl]
    exact accWithMem_of_read (fun _ m => m) (Memory.read_put_same hwf ha s.acc)
  · have hne : effectiveAddr b ≠ effectiveAddr a := fun h => hb (BitVec.eq_of_toNat_eq h)
    have hread := Memory.read_put_of_ne hwf hne s.acc
    rw [if_neg hb]
    cases hr : s.mem.read (effectiveAddr b) with
    | some m => exact accWithMem_of_read (fun _ m => m) (hread.trans hr)
    | none => exact accWithMem_of_read_none (fun _ m => m) (hread.trans hr)

/-! ## No data access -/

section
variable (s : State) (m : Memory)

theorem deliver_setMem : deliver (s.setMem m) = (deliver s).setMem m := by
  simp only [deliver, State.setMem_buf, State.setMem_head]
  cases s.buf[s.head]? <;> rfl

theorem deliver_refillWith_setMem (bytes : List Byte) :
    deliver ((s.setMem m).refillWith bytes) = (deliver (s.refillWith bytes)).setMem m :=
  deliver_setMem (s.refillWith bytes) m

theorem execInp_setMem (a : Addr) : execInp a (s.setMem m) = onNext (·.setMem m) (execInp a s) := by
  have hlines : lineAnswer (s.setMem m).lines (s.setMem m).req = lineAnswer s.lines s.req := rfl
  by_cases hh : s.head = s.buf.length
  · have hh' : (s.setMem m).head = (s.setMem m).buf.length := hh
    simp only [execInp, refill, if_pos hh, if_pos hh', hlines]
    rcases lineAnswer s.lines s.req with _ | (bytes | _)
    · rfl
    · simp only [deliver_refillWith_setMem]
      rfl
    · rfl
  · have hh' : (s.setMem m).head ≠ (s.setMem m).buf.length := hh
    simp only [execInp, refill, if_neg hh, if_neg hh', deliver_setMem]
    rfl

/-- An instruction that makes no data access goes the same way with any memory in the place of memory. -/
theorem exec_setMem {i : Instr} (hi : accessesData i = false) :
    exec i (s.setMem m) = onNext (·.setMem m) (exec i s) := by
  cases i with
  | add | xor | and | or | lda | sta => cases hi
  | jma a =>
    have hb : accBit15 (s.setMem m) = accBit15 s := rfl
    simp only [exec, execJma, hb]
    split <;> rfl
  | inp a => exact execInp_setMem s m a
  | _ => rfl

end

/-- Settles O45: of the effects only a store is on memory, and no other instruction's meaning names memory. -/
theorem otherInstructionsDoNotAccessMemory : Obligations.OtherInstructionsDoNotAccessMemory := by
  intro i s t m hi h
  constructor
  · obtain hm | ⟨a, rfl, -⟩ := (effect_of_exec h).mem_eq_or_put
    · exact hm
    · cases hi
  · calc exec i { s with mem := m }
        = onNext (·.setMem m) (exec i s) := exec_setMem s m hi
      _ = .next { t with mem := m } := by rw [h]; rfl

end Sys2Proof.Machine

/-! # The two fields of a word, the decoder and the encoder -/

namespace Sys2Proof

/-! ## The fields -/

theorem opField_toNat (w : Word) : (opField w).toNat = w.toNat / 4096 := by
  have := w.isLt
  simp only [opField, BitVec.extractLsb'_toNat, Nat.shiftRight_eq_div_pow]
  omega

theorem addrField_toNat (w : Word) : (addrField w).toNat = w.toNat % 4096 := by
  simp [addrField, BitVec.extractLsb'_toNat]

/-- `ir = op * 4096 + addr` (30_encoding.md R81). -/
theorem toNat_eq_fields (w : Word) : w.toNat = (opField w).toNat * 4096 + (addrField w).toNat := by
  rw [opField_toNat, addrField_toNat]
  omega

/-- The two fields determine the word. -/
theorem eq_of_fields_eq {v w : Word} (hop : opField v = opField w) (haddr : addrField v = addrField w) : v = w := by
  apply BitVec.eq_of_toNat_eq
  rw [toNat_eq_fields v, toNat_eq_fields w, hop, haddr]

/-- Settles O1: the bits of the two extractions, and what they are as numbers. -/
theorem fieldsSplitTheWord : Obligations.FieldsSplitTheWord := by
  intro w
  refine ⟨fun i hi => ?_, fun i hi => ?_, opField_toNat w, addrField_toNat w, toNat_eq_fields w⟩
  · simp [opField, hi]
  · simp [addrField, hi]

/-! ## Decoding a word and encoding the instruction it is -/

/-- The address of the instruction a word is, is its address field (30_encoding.md R86). -/
theorem addrOf_decode (w : Word) : addrOf (decode w) = addrField w := by
  unfold decode
  split
  case h_1 =>
    split
    case isTrue hw => rw [hw]; rfl
    case isFalse => rfl
  all_goals rfl

/-- Of the words of operation 0 all but 0x0000 are HLT.NZ (30_encoding.md R85). -/
theorem decode_of_opField_eq_zero {w : Word} (hw : w ≠ 0x0000#16) (hop : opField w = 0#4) :
    decode w = .hltNz (addrField w) := by
  simp [decode, hop, hw]

/-- The one check is that of HLT.NZ (30_encoding.md R85). -/
theorem Instr.wf_iff (i : Instr) : i.wf = true ↔ ∀ a, i = .hltNz a → a ≠ 0#12 := by
  cases i <;> simp [Instr.wf]

/-- Only the word 0x0000 has both fields 0, and that word is not HLT.NZ. -/
theorem decode_wf (w : Word) : (decode w).wf = true := by
  rw [Instr.wf_iff]
  rintro a hw rfl
  have hop : opField w = 0#4 := by rw [← opNumber_decode, hw]; rfl
  have haddr : addrField w = 0#12 := by rw [← addrOf_decode, hw]; rfl
  obtain rfl : w = 0x0000#16 := eq_of_fields_eq hop haddr
  cases hw

theorem encode_decode (w : Word) : encode (decode w) = w := by
  apply eq_of_fields_eq
  · rw [encode, opField_append, opNumber_decode]
  · rw [encode, addrField_append, addrOf_decode]

/-- Settles O4: the decoded instruction has the fields of its word, and the fields determine the word. -/
theorem everyWordIsTheWordOfItsInstruction : Obligations.EveryWordIsTheWordOfItsInstruction :=
  fun w => ⟨decode_wf w, encode_decode w⟩

/-! ## Encoding an instruction and decoding its word -/

/-- Decoding reads the operation number back; under number 0 it is the address that tells HLT from HLT.NZ. -/
theorem decode_encode {i : Instr} (hi : i.wf = true) : decode (encode i) = i := by
  have hop : opField (encode i) = opNumber i := opField_append _ _
  have haddr : addrField (encode i) = addrOf i := addrField_append _ _
  cases i with
  | hlt => rfl
  | hltNz a =>
    have hne : encode (.hltNz a) ≠ 0x0000#16 := by
      intro h
      have ha : a = 0#12 := by rw [h] at haddr; exact haddr.symm
      exact (Instr.wf_iff _).1 hi a rfl ha
    rw [decode_of_opField_eq_zero hne hop, haddr]
    rfl
  | _ => simp [decode, hop, haddr, opNumber, addrOf]

/-- Settles O3, by the rows of the opcode map. -/
theorem decodeOfEncodeIsTheInstruction : Obligations.DecodeOfEncodeIsTheInstruction :=
  fun _ => decode_encode

/-- The word of a mnemonic, as a number (30_encoding.md R89). -/
theorem encode_eq_ofNat (i : Instr) :
    encode i = BitVec.ofNat 16 ((opNumber i).toNat * 4096 + (addrOf i).toNat) := by
  have h := toNat_eq_fields (encode i)
  rw [encode, opField_append, addrField_append] at h
  rw [← h, BitVec.ofNat_toNat, BitVec.setWidth_eq, encode]

theorem decode_ofNat {i : Instr} {n : Nat} (hi : i.wf = true) (hn : (opNumber i).toNat = n) :
    decode (BitVec.ofNat 16 (n * 4096 + (addrOf i).toNat)) = i := by
  rw [← hn, ← encode_eq_ofNat, decode_encode hi]

/-- Settles O2: each row's word is the word of its instruction. -/
theorem decodeFollowsTheOpcodeMap : Obligations.DecodeFollowsTheOpcodeMap := by
  intro a
  have hltNz (ha : a ≠ 0#12) : decode (BitVec.ofNat 16 a.toNat) = .hltNz a := by
    simpa [addrOf] using decode_ofNat (i := .hltNz a) (n := 0) (bne_iff_ne.2 ha) rfl
  exact ⟨rfl, hltNz,
    decode_ofNat (i := .add a) rfl rfl, decode_ofNat (i := .xor a) rfl rfl, decode_ofNat (i := .and a) rfl rfl,
    decode_ofNat (i := .or a) rfl rfl, decode_ofNat (i := .not a) rfl rfl, decode_ofNat (i := .lda a) rfl rfl,
    decode_ofNat (i := .sta a) rfl rfl, decode_ofNat (i := .srj a) rfl rfl, decode_ofNat (i := .jma a) rfl rfl,
    decode_ofNat (i := .jmp a) rfl rfl, decode_ofNat (i := .inp a) rfl rfl, decode_ofNat (i := .out a) rfl rfl,
    decode_ofNat (i := .ral a) rfl rfl, decode_ofNat (i := .csa a) rfl rfl, decode_ofNat (i := .nop a) rfl rfl⟩

/-- Settles O6: nine fixed words. -/
theorem wordsTheSpecReadsDecodeAsItReadsThem : Obligations.WordsTheSpecReadsDecodeAsItReadsThem := by
  unfold Obligations.WordsTheSpecReadsDecodeAsItReadsThem
  decide

/-- No other word halts: decoding drops no bit, so the word of an HLT is the word HLT encodes to. -/
theorem decode_eq_hlt_iff (w : Word) : decode w = .hlt ↔ w = 0x0000#16 := by
  constructor
  · intro h
    calc w = encode (decode w) := (encode_decode w).symm
      _ = encode .hlt := by rw [h]
      _ = 0x0000#16 := rfl
  · rintro rfl
    rfl

namespace Machine

/-- Settles O5: operation 0 is HLT at the word 0x0000 alone, and HLT.NZ has no effect. -/
theorem onlyTheZeroWordHaltsAmongOperationZero : Obligations.OnlyTheZeroWordHaltsAmongOperationZero := by
  refine ⟨fun s => ⟨s.setRun .halted, rfl, rfl⟩, decode_eq_hlt_iff, fun w s hw hop => ?_⟩
  rw [decode_of_opField_eq_zero hw hop]
  rfl

/-! ## Progress -/

/-- A core whose IN waits goes on with that IN (44_io.md R176). -/
theorem step_of_waiting {s : State} (hs : s.Waiting) : step s = exec (waitingInstr s) s := by
  obtain ⟨hrun, hph⟩ := hs
  unfold step
  rw [hrun, hph]

theorem exec_next (i : Instr) (s : State) : ∃ t, exec i s = .next t := by
  obtain ⟨t, ht, -⟩ := exec_effect i s
  exact ⟨t, ht⟩

/-- Settles O10: a running core executes an instruction, fetched or waiting, or its fetch raises. -/
theorem runningCoreHasANextState : Obligations.RunningCoreHasANextState := by
  intro s hrun
  cases hph : s.phase with
  | awaitingLine =>
    rw [step_of_waiting ⟨hrun, hph⟩]
    exact exec_next _ s
  | ready =>
    cases hr : s.mem.read s.pc with
    | some w =>
      rw [step_of_read ⟨hrun, hph⟩ hr]
      exact exec_next _ _
    | none => exact ⟨_, step_of_len_le ⟨hrun, hph⟩ (Memory.read_eq_none_iff.1 hr)⟩

end Machine
end Sys2Proof

/-! # The instruction cycle

How a step halts, moves `pc`, and runs past the last word of memory (40_cycle.md R100 to R108). -/

namespace Sys2Proof

/-- The word of an instruction as a number: the operation number over the address (30_encoding.md R89). -/
theorem encode_toNat (i : Instr) : (encode i).toNat = (opNumber i).toNat * 4096 + (addrOf i).toNat := by
  rw [toNat_eq_fields (encode i), encode, opField_append, addrField_append]

namespace Machine

variable {s t : State} {i : Instr}

/-- Settles O7: the fetch succeeds, so the step is `exec` in the state `afterFetch` writes out. -/
theorem stepRunsTheDecodedInstruction : Obligations.StepRunsTheDecodedInstruction :=
  fun _ _ => step_of_read

/-! ## HLT, HLT.NZ, NOP -/

/-- Settles O16: the state HLT leaves is one in which the run has ended. -/
theorem hltHaltsAndChangesNothingElse : Obligations.HltHaltsAndChangesNothingElse := by
  intro s
  obtain ⟨hno, -, -⟩ := endedRunTakesNoStep (s.setRun .halted) nofun
  exact ⟨rfl, rfl, hno⟩

/-- Settles O17: under operation number 0 the word is the address as a number. -/
theorem hltNzHasNoEffect : Obligations.HltNzHasNoEffect := by
  intro a s ha
  have hword : (encode (.hltNz a)).toNat = a.toNat := by simp [encode_toNat, opNumber, addrOf]
  have hpos : a.toNat ≠ 0 := fun h => ha (BitVec.eq_of_toNat_eq h)
  have hlt := a.isLt
  exact ⟨by omega, rfl⟩

/-- Settles O18: both meanings are the state itself, whatever the addresses. -/
theorem nopHasNoEffect : Obligations.NopHasNoEffect := by
  intro a b s
  have hword : (encode (.nop a)).toNat = 0xF000 + a.toNat := by simp [encode_toNat, opNumber, addrOf]
  exact ⟨hword, rfl, rfl⟩

/-! ## Halting -/

/-- Of the effects on a running core only that of HLT halts. -/
theorem Effect.eq_hlt (he : Effect s i t) (hrun : s.run = .running) (ht : t.run = .halted) :
    i = .hlt ∧ t = s.setRun .halted := by
  cases he with
  | halt => exact ⟨rfl, rfl⟩
  | loadFault | storeFault | inputFault => cases ht
  | _ => cases hrun.symm.trans ht

/-- A step that leaves the run halted has fetched the zero word, and beyond the fetch has changed `run` alone. -/
theorem step_halted (h : step s = .next t) (ht : t.run = .halted) :
    s.phase = .ready ∧ s.mem.read s.pc = some 0x0000#16 ∧ t = (afterFetch s 0x0000#16).setRun .halted := by
  obtain ⟨hrun, ⟨w, hph, hr, he⟩ | ⟨-, rfl⟩ | ⟨-, he⟩⟩ := step_effect h
  · obtain ⟨hw, rfl⟩ := he.eq_hlt hrun ht
    obtain rfl := (decode_eq_hlt_iff w).1 hw
    exact ⟨hph, hr, rfl⟩
  · cases ht
  · obtain ⟨hw, -⟩ := he.eq_hlt hrun ht
    cases hw

/-- Settles O11: only HLT halts, and only the zero word is an HLT. -/
theorem runHaltsExactlyOnFetchingTheZeroWord : Obligations.RunHaltsExactlyOnFetchingTheZeroWord := by
  intro s hrun
  refine ⟨⟨?_, ?_⟩, ?_⟩
  · rintro ⟨t, h, ht⟩
    obtain ⟨hph, hr, -⟩ := step_halted h ht
    exact ⟨hph, hr⟩
  · rintro ⟨hph, hr⟩
    exact ⟨(afterFetch s 0x0000#16).setRun .halted, step_of_read ⟨hrun, hph⟩ hr, rfl⟩
  · intro t h ht
    obtain ⟨-, -, rfl⟩ := step_halted h ht
    exact ⟨rfl, rfl⟩

/-! ## The program counter -/

/-- Bit 15 is the one JMA tests (43_control_transfer.md R152). -/
theorem getLsbD_fifteen_iff (x : Word) : x.getLsbD 15 = true ↔ 0x8000 ≤ x.toNat := by
  have hmsb : x.msb = x.getLsbD 15 := BitVec.msb_eq_getLsbD_last x
  rw [← hmsb, BitVec.msb_eq_decide, decide_eq_true_iff]

theorem exec_jma_of_le (a : Addr) (hacc : 0x8000 ≤ s.acc.toNat) : exec (.jma a) s = .next (s.setPc a.toNat) := by
  obtain ⟨-, he⟩ | ⟨hb, -⟩ := execJma_cases a s
  · exact he
  · cases hb.symm.trans ((getLsbD_fifteen_iff s.acc).2 hacc)

theorem exec_jma_of_lt (a : Addr) (hacc : s.acc.toNat < 0x8000) : exec (.jma a) s = .next s := by
  obtain ⟨hb, -⟩ | ⟨-, he⟩ := execJma_cases a s
  · exact absurd ((getLsbD_fifteen_iff s.acc).1 hb) (Nat.not_le.2 hacc)
  · exact he

theorem Effect.pc_eq_or_transfer (he : Effect s i t) :
    t.pc = s.pc ∨ ∃ a, i = .srj a ∨ i = .jmp a ∨ i = .jma a := by
  cases he with
  | jump a hi => exact .inr ⟨a, .inr hi.symm⟩
  | saveAndJump a => exact .inr ⟨a, .inl rfl⟩
  | _ => exact .inl rfl

/-- A transfer of control goes to its address field (43_control_transfer.md R150). -/
theorem exec_pc_of_transfer {a : Addr} (h : exec i s = .next t)
    (hi : i = .srj a ∨ i = .jmp a ∨ (i = .jma a ∧ 0x8000 ≤ s.acc.toNat)) : t.pc = a.toNat := by
  obtain rfl | rfl | ⟨rfl, hacc⟩ := hi
  · cases h
    rfl
  · cases h
    rfl
  · cases (exec_jma_of_le a hacc).symm.trans h
    rfl

/-- Any other instruction, and a JMA not taken, leaves `pc` as the fetch made it. -/
theorem exec_pc_of_no_transfer (h : exec i s = .next t)
    (hi : ∀ a, i ≠ .srj a ∧ i ≠ .jmp a ∧ (i = .jma a → s.acc.toNat < 0x8000)) : t.pc = s.pc := by
  obtain hpc | ⟨a, ha⟩ := (effect_of_exec h).pc_eq_or_transfer
  · exact hpc
  · obtain ⟨hsrj, hjmp, hjma⟩ := hi a
    obtain ha | ha | rfl := ha
    · exact absurd ha hsrj
    · exact absurd ha hjmp
    · cases (exec_jma_of_lt a (hjma rfl)).symm.trans h
      rfl

/-- Settles O12: the fetch raises, or the word is executed with `pc` at the following address. -/
theorem programCounterMovesAsTheSummarySays : Obligations.ProgramCounterMovesAsTheSummarySays := by
  intro s t hs h
  refine ⟨fun hn => ?_, fun w hr => ?_⟩
  · cases (step_of_len_le hs (Memory.read_eq_none_iff.1 hn)).symm.trans h
    rfl
  · have he : exec (decode w) (afterFetch s w) = .next t := (step_of_read hs hr).symm.trans h
    exact ⟨fun a ha => exec_pc_of_transfer he ha, fun hno => exec_pc_of_no_transfer he hno⟩

/-! ## Past the last word -/

@[simp] theorem deliver_run (s : State) : (deliver s).run = s.run := by
  obtain ⟨v, n, hd, -⟩ := deliver_eq_setAcc_setHead s
  rw [hd]
  rfl

/-- An IN that has a byte or a line to go on with neither waits nor fails (44_io.md R171). -/
theorem execInp_fetching {a : Addr} (h : execInp a s = .next t) (hrun : s.run = .running)
    (hline : s.head ≠ s.buf.length ∨ ∃ bytes, lineAnswer s.lines s.req = some (.line bytes)) : t.Fetching := by
  obtain ⟨hh, ha, -⟩ | ⟨hh, ha, -⟩ | ⟨bytes, -, -, he⟩ | ⟨-, he⟩ := execInp_cases a s
  · simp [hh, ha] at hline
  · simp [hh, ha] at hline
  · cases he.symm.trans h
    exact ⟨by simp [hrun], rfl⟩
  · cases he.symm.trans h
    exact ⟨by simp [hrun], rfl⟩

/-- What keeps the next step from beginning with a fetch is a halt, a data access out of range, or an IN. -/
theorem Effect.fetching (he : Effect s i t) (hs : s.Fetching) (hhlt : i ≠ .hlt)
    (hdata : accessesData i = true → effectiveAddr (addrOf i) < s.mem.len) (hinp : ∀ a, i ≠ .inp a) : t.Fetching := by
  cases he with
  | halt => exact absurd rfl hhlt
  | loadFault hi _ hl => exact absurd (hdata hi) (Nat.not_lt.2 hl)
  | storeFault a hl => exact absurd (hdata rfl) (Nat.not_lt.2 hl)
  | wait a | inputFault a | deliver a | refill a => exact absurd rfl (hinp a)
  | _ => exact hs

/-- `Effect.fetching` for every instruction: an IN is allowed that neither waits nor fails. -/
theorem exec_fetching (h : exec i s = .next t) (hs : s.Fetching) (hhlt : i ≠ .hlt)
    (hdata : accessesData i = true → effectiveAddr (addrOf i) < s.mem.len)
    (hinp : ∀ a, i = .inp a → s.head ≠ s.buf.length ∨ ∃ bytes, lineAnswer s.lines s.req = some (.line bytes)) :
    t.Fetching := by
  cases i with
  | inp a => exact execInp_fetching (a := a) h hs.1 (hinp a rfl)
  | _ => exact (effect_of_exec h).fetching hs hhlt hdata nofun

/-- Settles O14: after the fetch `pc` is MEM_LEN, which no step changes and at which no word can be fetched. -/
theorem runningOffTheEndOfMemoryFaults : Obligations.RunningOffTheEndOfMemoryFaults := by
  intro s w hs hlast hr
  obtain ⟨t, he⟩ := exec_next (decode w) (afterFetch s w)
  have hstep : step s = .next t := (step_of_read hs hr).trans he
  obtain ⟨-, hlen, -⟩ := step_constants hstep
  refine ⟨t, hstep, fun ht hpc => ?_, fun hno => ?_, exec_fetching (s := afterFetch s w) he hs⟩
  · have hfault := step_of_len_le ht (hlen.trans hpc.symm).le
    rwa [hpc] at hfault
  · exact (exec_pc_of_no_transfer he hno).trans hlast

end Machine
end Sys2Proof

/-! # Arithmetic and logic

ADD, XOR, AND, OR with a memory operand, and NOT and RAL on the accumulator alone (41_alu.md R120 to R127). -/

namespace Sys2Proof.Machine

variable {s : State}

/-! ## The operations on words -/

/-- The sum on naturals cut to 16 bits is the addition of words (41_alu.md R121). -/
theorem aluAdd_eq_add (x m : Word) : aluAdd x m = x + m := (BitVec.add_def x m).symm

theorem aluAdd_eq_ofNat_mod (x m : Word) : aluAdd x m = BitVec.ofNat 16 ((x.toNat + m.toNat) % 65536) := by
  apply BitVec.eq_of_toNat_eq
  simp [aluAdd]

theorem not_eq_ofNat_sub (x : Word) : ~~~x = BitVec.ofNat 16 (0xFFFF - x.toNat) := by
  have hlt : 0xFFFF - x.toNat < 65536 := by omega
  apply BitVec.eq_of_toNat_eq
  rw [BitVec.toNat_not, BitVec.toNat_ofNat, Nat.mod_eq_of_lt hlt]

/-- `x + NOT_16(x) = 0xFFFF` (41_alu.md R127). -/
theorem aluAdd_not_self (x : Word) : aluAdd (~~~x) x = 0xFFFF#16 := by
  rw [aluAdd_eq_add, BitVec.add_comm, BitVec.add_not_self]
  rfl

theorem aluRal_eq_rotateLeft (x : Word) : aluRal x = x.rotateLeft 1 := rfl

/-- Bit `i` of a rotation is the bit below it, counted round the word (41_alu.md R126). -/
theorem getLsbD_aluRal (x : Word) {i : Nat} (hi : i < 16) : (aluRal x).getLsbD i = x.getLsbD ((i + 15) % 16) := by
  rw [aluRal_eq_rotateLeft, BitVec.getLsbD_rotateLeft_of_le (by decide)]
  cases i with
  | zero => rfl
  | succ j =>
    have hj : (j + 1 + 15) % 16 = j := by omega
    simp [hj, hi]

theorem getLsbD_iterate_aluRal (n : Nat) (x : Word) {i : Nat} (hi : i < 16) :
    (aluRal^[n] x).getLsbD i = x.getLsbD ((i + 15 * n) % 16) := by
  induction n generalizing x with
  | zero => rw [Nat.mul_zero, Nat.add_zero, Nat.mod_eq_of_lt hi]; rfl
  | succ n ih =>
    have hidx : ((i + 15 * n) % 16 + 15) % 16 = (i + 15 * (n + 1)) % 16 := by omega
    rw [Function.iterate_succ_apply, ih, getLsbD_aluRal x (Nat.mod_lt _ (by decide)), hidx]

/-- Sixteen rotations bring every bit back to its place (41_alu.md R127). -/
theorem iterate_aluRal_sixteen (x : Word) : aluRal^[16] x = x := by
  apply BitVec.eq_of_getLsbD_eq
  intro i hi
  have hidx : (i + 15 * 16) % 16 = i := by omega
  rw [getLsbD_iterate_aluRal 16 x hi, hidx]

/-! ## Executing an operation -/

/-- The READ fault of an accumulator operation out of range (41_alu.md R120). -/
theorem accWithMem_fault (f : Word → Word → Word) {a : Addr} (hl : s.mem.len ≤ effectiveAddr a) :
    ∃ t, accWithMem f a s = .next t ∧ t.run = .faulted (.memRange .read a.toNat) ∧ t.acc = s.acc :=
  ⟨_, accWithMem_of_read_none f (Memory.read_eq_none_iff.2 hl), rfl, rfl⟩

/-- Repeating an instruction that only maps `acc` iterates the map. -/
theorem execRepeat_of_accOnly {i : Instr} {f : Word → Word} (h : ∀ s, exec i s = accOnly f s) (n : Nat) (s : State) :
    execRepeat i n s = .next (s.setAcc (f^[n] s.acc)) := by
  induction n generalizing s with
  | zero => rfl
  | succ n ih =>
    rw [execRepeat, h, accOnly]
    exact ih _

/-! ## The statements -/

/-- Settles O25: `acc` after the repetition is the iterate of the operation, which is `acc` again. -/
theorem rotationsAndComplementsUndoThemselves : Obligations.RotationsAndComplementsUndoThemselves := by
  intro a s
  have hral := execRepeat_of_accOnly (i := .ral a) (fun _ => rfl) 16 s
  have hnot := execRepeat_of_accOnly (i := .not a) (fun _ => rfl) 2 s
  rw [iterate_aluRal_sixteen] at hral
  rw [Function.iterate_succ_apply, Function.iterate_one, BitVec.not_not] at hnot
  exact ⟨hral, hnot⟩

/-- Settles O26: NOT changes no memory, so ADD reads the old accumulator. -/
theorem valueAndComplementAddToAllOnes : Obligations.ValueAndComplementAddToAllOnes := by
  intro a b s hr
  refine ⟨s.setAcc (~~~s.acc), rfl, ?_⟩
  calc exec (.add a) (s.setAcc (~~~s.acc))
      = .next ((s.setAcc (~~~s.acc)).setAcc (aluAdd (~~~s.acc) s.acc)) := accWithMem_of_read aluAdd hr
    _ = .next { s with acc := 0xFFFF#16 } := by rw [aluAdd_not_self]; rfl

/-- Settles O19: a word read gives the sum modulo 65536, an address outside memory the fault. -/
theorem addIsModulo65536 : Obligations.AddIsModulo65536 := by
  intro a s
  have hword : (encode (.add a)).toNat = 0x1000 + a.toNat := by simp [encode_toNat, opNumber, addrOf]
  refine ⟨hword, fun m hr => ?_, accWithMem_fault aluAdd⟩
  rw [← aluAdd_eq_ofNat_mod]
  exact accWithMem_of_read aluAdd hr

/-- Settles O20: the bits are those of the library's `xor` of two words. -/
theorem xorIsBitwise : Obligations.XorIsBitwise := by
  intro a s
  have hword : (encode (.xor a)).toNat = 0x2000 + a.toNat := by simp [encode_toNat, opNumber, addrOf]
  refine ⟨hword, fun m hr => ?_, accWithMem_fault _⟩
  exact ⟨s.acc ^^^ m, accWithMem_of_read _ hr, fun _ _ => BitVec.getLsbD_xor⟩

/-- Settles O21: the bits are those of the library's `and` of two words. -/
theorem andIsBitwise : Obligations.AndIsBitwise := by
  intro a s
  have hword : (encode (.and a)).toNat = 0x3000 + a.toNat := by simp [encode_toNat, opNumber, addrOf]
  refine ⟨hword, fun m hr => ?_, accWithMem_fault _⟩
  exact ⟨s.acc &&& m, accWithMem_of_read _ hr, fun _ _ => BitVec.getLsbD_and⟩

/-- Settles O22: the bits are those of the library's `or` of two words. -/
theorem orIsBitwise : Obligations.OrIsBitwise := by
  intro a s
  have hword : (encode (.or a)).toNat = 0x4000 + a.toNat := by simp [encode_toNat, opNumber, addrOf]
  refine ⟨hword, fun m hr => ?_, accWithMem_fault _⟩
  exact ⟨s.acc ||| m, accWithMem_of_read _ hr, fun _ _ => BitVec.getLsbD_or⟩

/-- Settles O23: the complement of a word is its difference from 0xFFFF. -/
theorem notComplementsTheAccumulator : Obligations.NotComplementsTheAccumulator := by
  intro a s
  have hword : (encode (.not a)).toNat = 0x5000 + a.toNat := by simp [encode_toNat, opNumber, addrOf]
  refine ⟨hword, ?_⟩
  rw [← not_eq_ofNat_sub]
  rfl

/-- Settles O24: the two clauses are `getLsbD_aluRal` at bit 0 and above it. -/
theorem ralRotatesLeftByOne : Obligations.RalRotatesLeftByOne := by
  intro a s
  have hword : (encode (.ral a)).toNat = 0xD000 + a.toNat := by simp [encode_toNat, opNumber, addrOf]
  refine ⟨hword, aluRal s.acc, rfl, getLsbD_aluRal s.acc (by decide), fun i hpos hi => ?_⟩
  have hidx : (i + 15) % 16 = i - 1 := by omega
  rw [getLsbD_aluRal s.acc hi, hidx]

end Sys2Proof.Machine

/-! # Data movement

LDA, STA and CSA: whole words between `acc` and memory, and from `cs` (42_data_movement.md R140 to R142). -/

namespace Sys2Proof.Machine

/-- A store outside memory changes `run` alone (60_exceptions.md R203, the WRITE row). -/
theorem exec_sta_of_le {a : Addr} {s : State} (hl : s.mem.len ≤ effectiveAddr a) :
    exec (.sta a) s = .next (s.setRun (.faulted (.memRange .write a.toNat))) := by
  obtain ⟨ha, -⟩ | ⟨-, he⟩ := storeMem_cases a s.acc s
  · exact absurd ha (Nat.not_lt.2 hl)
  · exact he

/-- Settles O28: in range, memory becomes the old one with `acc` put at the address; out of range only `run` changes. -/
theorem staStoresTheWholeWordAndNothingElse : Obligations.StaStoresTheWholeWordAndNothingElse := by
  intro a s hwf
  have hword : (encode (.sta a)).toNat = 0x7000 + a.toNat := by simp [encode_toNat, opNumber, addrOf]
  refine ⟨hword, rfl, fun ha => ?_, fun hl => ⟨_, exec_sta_of_le hl, rfl, rfl⟩⟩
  exact ⟨s.mem.put (effectiveAddr a) s.acc, exec_sta_of_lt ha, Memory.put_len _ _ _,
    Memory.read_put_same hwf ha s.acc, fun _ hb => Memory.read_put_of_ne hwf hb s.acc⟩

/-- Settles O27: LDA is the accumulator operation that keeps only the word read. -/
theorem ldaLoadsTheWholeWord : Obligations.LdaLoadsTheWholeWord := by
  intro a s
  have hword : (encode (.lda a)).toNat = 0x6000 + a.toNat := by simp [encode_toNat, opNumber, addrOf]
  exact ⟨hword, fun _ => accWithMem_of_read (fun _ m => m), accWithMem_fault (fun _ m => m)⟩

/-- Settles O29: CSA writes `cs` to `acc` by definition, so only the word needs an argument. -/
theorem csaCopiesTheStatusRegister : Obligations.CsaCopiesTheStatusRegister := by
  intro a s
  have hword : (encode (.csa a)).toNat = 0xE000 + a.toNat := by simp [encode_toNat, opNumber, addrOf]
  exact ⟨hword, rfl⟩

end Sys2Proof.Machine

/-! # Control transfer

SRJ, JMA and JMP: where they go, what SRJ saves, and a target outside memory (43_control_transfer.md R150 to R154). -/

namespace Sys2Proof.Machine

/-- Adding the template makes the return address the address field of a JMP (43_control_transfer.md R154). -/
theorem aluAdd_pcLow12_template (n : Nat) : aluAdd (pcLow12 n) 0xA000#16 = encode (.jmp (BitVec.ofNat 12 n)) := by
  have hsum : (n % 4096 + 40960) % 65536 = 40960 + n % 4096 := by omega
  apply BitVec.eq_of_toNat_eq
  simp [aluAdd, pcLow12, encode_toNat, opNumber, addrOf, hsum]

/-- The value SRJ saves, as the spec writes it: `pc AND 0xFFF` (43_control_transfer.md R151). -/
theorem pcLow12_eq_and (n : Nat) : pcLow12 n = BitVec.ofNat 16 n &&& 0x0FFF#16 := by
  have hmask : n % 65536 &&& 4095 = n % 65536 % 4096 := Nat.and_two_pow_sub_one_eq_mod _ 12
  have hmod : n % 4096 % 65536 = n % 65536 % 4096 := by omega
  apply BitVec.eq_of_toNat_eq
  simp [pcLow12, hmask, hmod]

/-- A taken transfer writes `pc`, SRJ also `acc`, and nothing else; it does not raise (43_control_transfer.md R150). -/
theorem exec_of_transfer {i : Instr} {a : Addr} {s : State}
    (hi : i = .srj a ∨ i = .jmp a ∨ (i = .jma a ∧ 0x8000 ≤ s.acc.toNat)) :
    ∃ v, exec i s = .next ((s.setAcc v).setPc a.toNat) := by
  obtain rfl | rfl | ⟨rfl, hacc⟩ := hi
  · exact ⟨pcLow12 s.pc, rfl⟩
  · exact ⟨s.acc, rfl⟩
  · exact ⟨s.acc, exec_jma_of_le a hacc⟩

/-- Settles O34: SRJ changes no memory, so ADD reads the template and makes the word of the JMP. -/
theorem addingTheTemplateMakesTheReturnJump : Obligations.AddingTheTemplateMakesTheReturnJump := by
  intro a k s hr
  refine ⟨(s.setAcc (pcLow12 s.pc)).setPc a.toNat, _, rfl, accWithMem_of_read aluAdd hr, ?_⟩
  calc decode (aluAdd (pcLow12 s.pc) 0xA000#16)
      = decode (encode (.jmp (BitVec.ofNat 12 s.pc))) := by rw [aluAdd_pcLow12_template]
    _ = .jmp (BitVec.ofNat 12 s.pc) := decode_encode rfl

/-- Settles O35: the transfer leaves a core that fetches outside memory, whose length it does not change. -/
theorem badJumpTargetFaultsAtTheNextFetch : Obligations.BadJumpTargetFaultsAtTheNextFetch := by
  intro a s w hs hr
  rw [step_of_read hs hr]
  refine ⟨fun hl hi => ?_, fun hi hacc => ?_⟩
  · obtain ⟨v, he⟩ := exec_of_transfer (s := afterFetch s w) hi
    exact ⟨_, he, hs, rfl, step_of_len_le (s := ((afterFetch s w).setAcc v).setPc a.toNat) hs hl⟩
  · rw [hi]
    exact exec_jma_of_lt a hacc

/-- Settles O31: `pc` modulo 4096 is `pc` with all but the low 12 bits cleared. -/
theorem srjSavesTheReturnAddressAndJumps : Obligations.SrjSavesTheReturnAddressAndJumps := by
  intro a s
  have hword : (encode (.srj a)).toNat = 0x8000 + a.toNat := by simp [encode_toNat, opNumber, addrOf]
  refine ⟨hword, ?_⟩
  rw [← pcLow12_eq_and]
  rfl

/-- Settles O32: the two branches of JMA, told apart by bit 15. -/
theorem jmaJumpsExactlyOnBitFifteen : Obligations.JmaJumpsExactlyOnBitFifteen := by
  intro a s
  have hword : (encode (.jma a)).toNat = 0x9000 + a.toNat := by simp [encode_toNat, opNumber, addrOf]
  exact ⟨hword, exec_jma_of_le a, exec_jma_of_lt a⟩

/-- Settles O33: JMP sets `pc` by definition, so only the word needs an argument. -/
theorem jmpJumps : Obligations.JmpJumps := by
  intro a s
  have hword : (encode (.jmp a)).toNat = 0xA000 + a.toNat := by simp [encode_toNat, opNumber, addrOf]
  exact ⟨hword, rfl⟩

end Sys2Proof.Machine

/-! # Input and output

What IN does with its tape and each answer of the line source, how it waits, and OUT (44_io.md R171 to R181). -/

namespace Sys2Proof.Machine

variable {s : State}

theorem State.setPhase_of_eq {p : Phase} (hp : s.phase = p) : s.setPhase p = s := by
  subst hp
  rfl

/-! ## The outcomes of IN -/

theorem zextByte_eq_ofNat (b : Byte) : zextByte b = BitVec.ofNat 16 b.toNat := (BitVec.ofNat_toNat 16 b).symm

/-- A byte at the cursor is delivered (44_io.md R175). -/
theorem deliver_of_getElem? {b : Byte} (hb : s.buf[s.head]? = some b) :
    deliver s = (s.setAcc (BitVec.ofNat 16 b.toNat)).setHead (s.head + 1) := by
  obtain ⟨hn, -⟩ | ⟨c, hc, hd⟩ := deliver_cases s
  · cases hn.symm.trans hb
  · obtain rfl := Option.some.inj (hc.symm.trans hb)
    rw [hd, zextByte_eq_ofNat]

/-- With a byte left in the buffer IN delivers it and makes no request (44_io.md R172). -/
theorem execInp_of_getElem? (a : Addr) {b : Byte} (hb : s.buf[s.head]? = some b) :
    execInp a s = .next (((s.setAcc (BitVec.ofNat 16 b.toNat)).setHead (s.head + 1)).setPhase .ready) := by
  obtain ⟨hlt, -⟩ := List.getElem?_eq_some_iff.1 hb
  have he : execInp a s = .next ((deliver s).setPhase .ready) := by simpa [hlt.ne] using execInp_cases a s
  rw [he, deliver_of_getElem? hb]

/-- At the end of the buffer IN makes a request, and delivers from the line that answers it (44_io.md R171). -/
theorem execInp_of_line (a : Addr) {bytes : List Byte} (hh : s.head = s.buf.length)
    (hl : lineAnswer s.lines s.req = some (.line bytes)) :
    execInp a s = .next ((deliver (s.refillWith bytes)).setPhase .ready) := by
  simpa [hh, hl] using execInp_cases a s

theorem execInp_of_line_cons (a : Addr) {b : Byte} {bs : List Byte} (hh : s.head = s.buf.length)
    (hl : lineAnswer s.lines s.req = some (.line (b :: bs))) :
    execInp a s = .next ((((s.refillWith (b :: bs)).setAcc (BitVec.ofNat 16 b.toNat)).setHead 1).setPhase .ready) := by
  rw [execInp_of_line a hh hl, deliver_of_getElem? (s := s.refillWith (b :: bs)) rfl]
  rfl

theorem execInp_of_line_nil (a : Addr) (hh : s.head = s.buf.length) (hl : lineAnswer s.lines s.req = some (.line [])) :
    execInp a s = .next (((s.refillWith []).setAcc 0x0000#16).setPhase .ready) :=
  execInp_of_line a hh hl

theorem execInp_of_failure (a : Addr) (hh : s.head = s.buf.length) (hl : lineAnswer s.lines s.req = some .failure) :
    execInp a s = .next ((s.setPhase .ready).setRun (.faulted (.inputFailure s.req))) := by
  simpa [hh, hl] using execInp_cases a s

theorem execInp_of_none (a : Addr) (hh : s.head = s.buf.length) (hl : lineAnswer s.lines s.req = none) :
    execInp a s = .next (s.setPhase .awaitingLine) := by
  simpa [hh, hl] using execInp_cases a s

/-- The answer supplied for the first request that has none is the answer to that request (44_io.md R174). -/
theorem lineAnswer_supply {src : LineSource} (hl : lineAnswer src src.answers.length = none) (r : LineAnswer) :
    lineAnswer (LineSource.supply src r) src.answers.length = some r := by
  have hrest : src.rest = none := by simpa [lineAnswer] using hl
  simp [LineSource.supply, lineAnswer, hrest]

/-- In a core that does not wait a delivery changes `acc` and the cursor alone. -/
theorem exec_inp_of_ready (a : Addr) {b : Byte} (hph : s.phase = .ready) (hb : s.buf[s.head]? = some b) :
    exec (.inp a) s = .next ((s.setAcc (BitVec.ofNat 16 b.toNat)).setHead (s.head + 1)) := by
  have hready : ((s.setAcc (BitVec.ofNat 16 b.toNat)).setHead (s.head + 1)).phase = .ready := hph
  rw [← State.setPhase_of_eq hready]
  exact execInp_of_getElem? a hb

theorem execRepeat_succ_of_next {i : Instr} {t : State} (h : exec i s = .next t) (n : Nat) :
    execRepeat i (n + 1) s = execRepeat i n t := by
  rw [execRepeat, h]

/-! ## The statements -/

/-- Settles O36: one outcome of IN for a byte left, and one for each answer. -/
theorem inRefillsThenDeliversOneByte : Obligations.InRefillsThenDeliversOneByte := by
  intro a s
  have hword : (encode (.inp a)).toNat = 0xB000 + a.toNat := by simp [encode_toNat, opNumber, addrOf]
  exact ⟨hword, fun _ _ => execInp_of_getElem? a, fun _ _ => execInp_of_line_cons a, execInp_of_line_nil a,
    execInp_of_failure a⟩

/-- Settles O37: the empty line leaves the tape exhausted again, so the next IN makes the next request. -/
theorem endOfInputIsNotSticky : Obligations.EndOfInputIsNotSticky := by
  intro a c s b bs hh hnil hcons
  exact ⟨_, execInp_of_line_nil a hh hnil, rfl, rfl, rfl, rfl, rfl, execInp_of_line_cons c rfl hcons⟩

/-- Settles O38: a fetched IN fails in the state after the fetch, a waiting one in the state it waits in. -/
theorem lineSourceFailureFaultsTheIn : Obligations.LineSourceFailureFaultsTheIn := by
  intro a s hh hl
  refine ⟨execInp_of_failure a hh hl, fun w hs hr hw => ?_, fun hs => ?_⟩
  · have hready : (afterFetch s w).setPhase .ready = afterFetch s w := State.setPhase_of_eq hs.2
    rw [step_of_read hs hr, hw]
    calc execInp a (afterFetch s w)
        = .next (((afterFetch s w).setPhase .ready).setRun (.faulted (.inputFailure s.req))) :=
          execInp_of_failure (s := afterFetch s w) a hh hl
      _ = .next ((afterFetch s w).setRun (.faulted (.inputFailure s.req))) := by rw [hready]
  · rw [step_of_waiting hs]
    exact execInp_of_failure (addrField s.ir) hh hl

/-- Settles O39: a waiting core does its IN again, which waits until the supplied answer is found. -/
theorem inWaitsUntilTheLineSourceAnswers : Obligations.InWaitsUntilTheLineSourceAnswers := by
  intro a s hh hl
  refine ⟨execInp_of_none a hh hl, fun hs => ⟨?_, fun r hlen => ⟨?_, ?_⟩⟩⟩
  · calc step s = execInp (addrField s.ir) s := step_of_waiting hs
      _ = .next (s.setPhase .awaitingLine) := execInp_of_none _ hh hl
      _ = .next s := by rw [State.setPhase_of_eq hs.2]
  · exact step_of_waiting (s := s.supplyLine r) hs
  · rw [← hlen] at hl
    rw [State.supplyLine_lines, ← hlen]
    exact lineAnswer_supply hl r

/-- Settles O40, by induction on `n`: the first IN delivers the byte at the cursor, and the others are `n` INs from the
cursor after it. -/
theorem bufferedBytesAreDeliveredInOrder : Obligations.BufferedBytesAreDeliveredInOrder := by
  intro a s n b hph hb
  induction n generalizing s with
  | zero => exact execRepeat_succ_of_next (exec_inp_of_ready a hph hb) 0
  | succ n ih =>
    obtain ⟨hlt, -⟩ := List.getElem?_eq_some_iff.1 hb
    have hfirst : s.buf[s.head]? = some s.buf[s.head] := List.getElem?_eq_getElem (by omega)
    have hb' : s.buf[s.head + 1 + n]? = some b := by rwa [Nat.add_right_comm]
    have hrest := ih ((s.setAcc (BitVec.ofNat 16 s.buf[s.head].toNat)).setHead (s.head + 1)) hph hb'
    rw [execRepeat_succ_of_next (exec_inp_of_ready a hph hfirst), hrest, State.setHead_head,
      Nat.add_right_comm s.head 1 n]
    rfl

/-- Settles O41: OUT appends the low byte by definition, and the low byte is `acc` modulo 256. -/
theorem outEmitsTheLowByte : Obligations.OutEmitsTheLowByte := by
  intro a s
  have hword : (encode (.out a)).toNat = 0xC000 + a.toNat := by simp [encode_toNat, opNumber, addrOf]
  refine ⟨hword, ?_⟩
  rw [← lowByte_eq_ofNat]
  rfl

end Sys2Proof.Machine

/-! # Faults

Which instruction raises which fatal condition, and what a data fault leaves (60_exceptions.md R200 to R203). -/

namespace Sys2Proof.Machine

/-- Of the effects on a running core only the three faulting ones leave it faulted, and each says when it comes about. -/
theorem Effect.fault_cases {i : Instr} {s t : State} {k : Fatal} (he : Effect s i t) (hrun : s.run = .running)
    (ht : t.run = .faulted k) :
    (k = .memRange .read (addrOf i).toNat ∧ s.mem.len ≤ (addrOf i).toNat ∧ accessesData i = true ∧ ∀ a, i ≠ .sta a) ∨
    (k = .memRange .write (addrOf i).toNat ∧ s.mem.len ≤ (addrOf i).toNat ∧ ∃ a, i = .sta a) ∨
    (k = .inputFailure s.req ∧ s.head = s.buf.length ∧ lineAnswer s.lines s.req = some .failure ∧ ∃ a, i = .inp a) := by
  cases he with
  | loadFault hi hs hl =>
    cases ht
    exact .inl ⟨rfl, hl, hi, hs⟩
  | storeFault a hl =>
    cases ht
    exact .inr (.inl ⟨rfl, hl, a, rfl⟩)
  | inputFault a hh hf =>
    cases ht
    exact .inr (.inr ⟨rfl, hh, hf, a, rfl⟩)
  | halt => cases ht
  | _ => cases hrun.symm.trans ht

/-- Settles O44: the changes an instruction can make are those of `Effect`, and `Effect.fault_cases` lists the faults
among them. -/
theorem faultsComeOnlyFromTheInstructionsTheTableNames :
    Obligations.FaultsComeOnlyFromTheInstructionsTheTableNames :=
  fun _ _ _ _ hrun h => (effect_of_exec h).fault_cases hrun

/-- Settles O46: a MemRange fault puts the 12-bit address at or above MEM_LEN, and no such address reaches 4096. -/
theorem noInstructionRaisesMemRangeInFullMemory : Obligations.NoInstructionRaisesMemRangeInFullMemory := by
  intro i s t k x hlen hrun h ht
  have haddr : (addrOf i).toNat < s.mem.len := hlen ▸ (addrOf i).isLt
  obtain ⟨-, hl, -⟩ | ⟨-, hl, -⟩ | ⟨hk, -⟩ := (effect_of_exec h).fault_cases hrun ht
  · exact Nat.not_lt.2 hl haddr
  · exact Nat.not_lt.2 hl haddr
  · cases hk

/-- Settles O42: all five are `accWithMem`, whose read finds no word. -/
theorem dataReadOutsideMemoryChangesOnlyRun : Obligations.DataReadOutsideMemoryChangesOnlyRun := by
  intro a s i hl hi
  have hr : s.mem.read (effectiveAddr a) = none := Memory.read_eq_none_iff.2 hl
  obtain rfl | rfl | rfl | rfl | rfl := hi
  · exact accWithMem_of_read_none aluAdd hr
  · exact accWithMem_of_read_none (fun x m => x ^^^ m) hr
  · exact accWithMem_of_read_none (fun x m => x &&& m) hr
  · exact accWithMem_of_read_none (fun x m => x ||| m) hr
  · exact accWithMem_of_read_none (fun _ m => m) hr

/-- Settles O43: a store out of range is the WRITE fault. -/
theorem storeOutsideMemoryChangesOnlyRun : Obligations.StoreOutsideMemoryChangesOnlyRun :=
  fun _ _ => exec_sta_of_le

end Sys2Proof.Machine
